-- ==== Sys2Proof/Word.lean ====
section
/-! DEFINITION. The machine's two word types (spec 00_scope.md R5, R10): bytes and 16-bit words, all unsigned. -/

namespace Sys2Proof

/-- 8 bits: a memory cell, a general register, a timer, the stack pointer (R5). -/
abbrev Byte := BitVec 8

/-- 16 bits: `pc`, `I`, a stack entry, an instruction word (R5). -/
abbrev Word := BitVec 16

/-- The index of a general register, V0 to VF (R22). -/
abbrev Reg := Fin 16

end Sys2Proof
end

