-- ==== Sys2Proof/Syntax.lean ====
section
/-! DEFINITION. The instruction set: one constructor for each of the 35 rows of spec/opcode_table.json (R80), with the
operand fields of R72 in the order the assembler syntax of R84 writes them. -/

namespace Sys2Proof

inductive Instr where
  /-- `0nnn` SYS addr, the native call; `nnn` is carried and used by nothing (R120). -/
  | sys (nnn : BitVec 12)
  /-- `00E0` CLS (R151). -/
  | cls
  /-- `00EE` RET (R123). -/
  | ret
  /-- `1nnn` JP addr (R121). -/
  | jp (nnn : BitVec 12)
  /-- `2nnn` CALL addr (R122). -/
  | call (nnn : BitVec 12)
  /-- `3xkk` SE Vx, byte (R124). -/
  | seByte (x : Reg) (kk : Byte)
  /-- `4xkk` SNE Vx, byte (R125). -/
  | sneByte (x : Reg) (kk : Byte)
  /-- `5xy0` SE Vx, Vy (R126). -/
  | seReg (x y : Reg)
  /-- `6xkk` LD Vx, byte (R102). -/
  | ldByte (x : Reg) (kk : Byte)
  /-- `7xkk` ADD Vx, byte (R103). -/
  | addByte (x : Reg) (kk : Byte)
  /-- `8xy0` LD Vx, Vy (R104). -/
  | ldReg (x y : Reg)
  /-- `8xy1` OR Vx, Vy (R105). -/
  | orReg (x y : Reg)
  /-- `8xy2` AND Vx, Vy (R111). -/
  | andReg (x y : Reg)
  /-- `8xy3` XOR Vx, Vy (R112). -/
  | xorReg (x y : Reg)
  /-- `8xy4` ADD Vx, Vy (R106). -/
  | addReg (x y : Reg)
  /-- `8xy5` SUB Vx, Vy (R107). -/
  | subReg (x y : Reg)
  /-- `8xy6` SHR Vx, Vy (R108). -/
  | shr (x y : Reg)
  /-- `8xy7` SUBN Vx, Vy (R109). -/
  | subn (x y : Reg)
  /-- `8xyE` SHL Vx, Vy (R110). -/
  | shl (x y : Reg)
  /-- `9xy0` SNE Vx, Vy (R127). -/
  | sneReg (x y : Reg)
  /-- `Annn` LD I, addr (R140). -/
  | ldI (nnn : BitVec 12)
  /-- `Bnnn` JP V0, addr (R128). -/
  | jpV0 (nnn : BitVec 12)
  /-- `Cxkk` RND Vx, byte (R158). -/
  | rnd (x : Reg) (kk : Byte)
  /-- `Dxyn` DRW Vx, Vy, nibble; `n` is the height, 0 to 15 (R152). -/
  | drw (x y : Reg) (n : Fin 16)
  /-- `Ex9E` SKP Vx (R153). -/
  | skp (x : Reg)
  /-- `ExA1` SKNP Vx (R154). -/
  | sknp (x : Reg)
  /-- `Fx07` LD Vx, DT (R156). -/
  | ldVxDT (x : Reg)
  /-- `Fx0A` LD Vx, K, the key wait (R155). -/
  | ldVxK (x : Reg)
  /-- `Fx15` LD DT, Vx (R157). -/
  | ldDTVx (x : Reg)
  /-- `Fx18` LD ST, Vx (R159). -/
  | ldSTVx (x : Reg)
  /-- `Fx1E` ADD I, Vx (R141). -/
  | addIVx (x : Reg)
  /-- `Fx29` LD F, Vx (R142). -/
  | ldFVx (x : Reg)
  /-- `Fx33` LD B, Vx, the spec's BCD (R143). -/
  | ldBVx (x : Reg)
  /-- `Fx55` LD [I], Vx, the block store (R145). -/
  | ldMemVx (x : Reg)
  /-- `Fx65` LD Vx, [I], the block load (R146). -/
  | ldVxMem (x : Reg)
  deriving DecidableEq, Repr

end Sys2Proof
end

