-- ==== Sys2Proof/Decode.lean ====
section
/-! DEFINITION. Instruction words: fields (R72), the primary and the four secondary dispatch levels (R74 to R78) with
their key tables held as data, rejection by name (R81), and the encoder from the map of R80. The bits that R79 calls
ignored are not examined (log entry 15); which key selects what is the spec's general knowledge (log entry 5). -/

namespace Sys2Proof

/-- Why a word or a byte sequence is no instruction (R81). -/
inductive DecodeReject where
  /-- Family 0x8 with a key no handler is registered for (R81 a). -/
  | family8Key
  /-- Family 0xE with a key no handler is registered for (R81 b). -/
  | familyEKey
  /-- Family 0xF with a key no handler is registered for (R81 c). -/
  | familyFKey
  /-- Fewer than two bytes; no fetch of the machine gives this, since every fetch reads two (R70). -/
  | truncated
  deriving DecidableEq, Repr

/-- Two bytes as a word, big-endian: the byte at the lower address is bits 15 to 8 (R54). -/
def joinBytes (hi lo : Byte) : Word := hi ++ lo

/-- `op[15:12]` (R72). -/
def fieldFamily (op : Word) : Fin 16 := (op.extractLsb' 12 4).toFin

/-- `x = op[11:8]` (R72). -/
def fieldX (op : Word) : Reg := (op.extractLsb' 8 4).toFin

/-- `y = op[7:4]` (R72). -/
def fieldY (op : Word) : Reg := (op.extractLsb' 4 4).toFin

/-- `n = op[3:0]`, also the 4-bit secondary key (R72, R74). -/
def fieldN (op : Word) : Fin 16 := (op.extractLsb' 0 4).toFin

/-- `kk = op[7:0]`, also the 8-bit secondary key (R72, R78). -/
def fieldKK (op : Word) : Byte := op.extractLsb' 0 8

/-- `nnn = op[11:0]` (R72). -/
def fieldNNN (op : Word) : BitVec 12 := op.extractLsb' 0 12

/-- Family 0x8's registered keys (R76). -/
def keys8 : List (Fin 16 × (Reg → Reg → Instr)) :=
  [(0x0, .ldReg), (0x1, .orReg), (0x2, .andReg), (0x3, .xorReg), (0x4, .addReg),
   (0x5, .subReg), (0x6, .shr), (0x7, .subn), (0xE, .shl)]

/-- Family 0xE's registered keys (R77). -/
def keysE : List (Fin 16 × (Reg → Instr)) :=
  [(0xE, .skp), (0x1, .sknp)]

/-- Family 0xF's registered keys, eight bits each (R78). -/
def keysF : List (Byte × (Reg → Instr)) :=
  [(0x07, .ldVxDT), (0x0A, .ldVxK), (0x15, .ldDTVx), (0x18, .ldSTVx), (0x1E, .addIVx),
   (0x29, .ldFVx), (0x33, .ldBVx), (0x55, .ldMemVx), (0x65, .ldVxMem)]

/-- Family 0x0: two keys, and every other key is SYS (R75, 90_conflicts.md C1). -/
def decode0 (op : Word) : Instr :=
  if fieldN op = 0x0 then .cls
  else if fieldN op = 0xE then .ret
  else .sys (fieldNNN op)

/-- Family 0x8 (R76). -/
def decode8 (op : Word) : Except DecodeReject Instr :=
  match keys8.lookup (fieldN op) with
  | some make => .ok (make (fieldX op) (fieldY op))
  | none => .error .family8Key

/-- Family 0xE (R77). -/
def decodeE (op : Word) : Except DecodeReject Instr :=
  match keysE.lookup (fieldN op) with
  | some make => .ok (make (fieldX op))
  | none => .error .familyEKey

/-- Family 0xF (R78). -/
def decodeF (op : Word) : Except DecodeReject Instr :=
  match keysF.lookup (fieldKK op) with
  | some make => .ok (make (fieldX op))
  | none => .error .familyFKey

/-- A primary slot that selects its instruction with no further test of any bit (R74). -/
def direct (make : Word → Instr) (op : Word) : Except DecodeReject Instr := .ok (make op)

/-- The sixteen primary slots, by `op[15:12]` (R74). -/
def primary : Vector (Word → Except DecodeReject Instr) 16 :=
  #v[direct decode0,
     direct fun op => .jp (fieldNNN op),
     direct fun op => .call (fieldNNN op),
     direct fun op => .seByte (fieldX op) (fieldKK op),
     direct fun op => .sneByte (fieldX op) (fieldKK op),
     direct fun op => .seReg (fieldX op) (fieldY op),
     direct fun op => .ldByte (fieldX op) (fieldKK op),
     direct fun op => .addByte (fieldX op) (fieldKK op),
     decode8,
     direct fun op => .sneReg (fieldX op) (fieldY op),
     direct fun op => .ldI (fieldNNN op),
     direct fun op => .jpV0 (fieldNNN op),
     direct fun op => .rnd (fieldX op) (fieldKK op),
     direct fun op => .drw (fieldX op) (fieldY op) (fieldN op),
     decodeE,
     decodeF]

/-- Dispatch: the slot of the word's family, applied to the word (R74, R93). -/
def decode (op : Word) : Except DecodeReject Instr := primary[fieldFamily op] op

/-- The decoder over bytes: the first two, big-endian, and what is left (R54, R70). -/
def decodeBytes : List Byte → Except DecodeReject (Instr × List Byte)
  | hi :: lo :: rest =>
    match decode (joinBytes hi lo) with
    | .ok i => .ok (i, rest)
    | .error r => .error r
  | _ => .error .truncated

/-- The two bytes of a word in memory order (R54). -/
def splitWord (op : Word) : List Byte := [op.extractLsb' 8 8, op.extractLsb' 0 8]

/-- The instruction read from a table word of `nbits` bits, every bit above them 0: laid out big-endian and given to the
byte decoder. -/
def decodeTableWord (nbits w : Nat) : Option Instr :=
  match decodeBytes (splitWord (BitVec.ofNat 16 (w % 2 ^ nbits))) with
  | .ok (i, _) => some i
  | .error _ => none

/-- Format NNN of R71. -/
def wordNNN (family : Nat) (nnn : BitVec 12) : Word := BitVec.ofNat 16 (family * 0x1000 + nnn.toNat)

/-- Formats XKK and XK8 of R71. -/
def wordXKK (family : Nat) (x : Reg) (kk : Nat) : Word :=
  BitVec.ofNat 16 (family * 0x1000 + x.val * 0x100 + kk)

/-- Formats XYK and XYN of R71. -/
def wordXYN (family : Nat) (x y : Reg) (n : Nat) : Word :=
  BitVec.ofNat 16 (family * 0x1000 + x.val * 0x100 + y.val * 0x10 + n)

/-- The canonical encoding of R80; R79 gives the value of the bits the decoder ignores. -/
def encode : Instr → Word
  | .sys nnn => wordNNN 0x0 nnn
  | .cls => 0x00E0
  | .ret => 0x00EE
  | .jp nnn => wordNNN 0x1 nnn
  | .call nnn => wordNNN 0x2 nnn
  | .seByte x kk => wordXKK 0x3 x kk.toNat
  | .sneByte x kk => wordXKK 0x4 x kk.toNat
  | .seReg x y => wordXYN 0x5 x y 0x0
  | .ldByte x kk => wordXKK 0x6 x kk.toNat
  | .addByte x kk => wordXKK 0x7 x kk.toNat
  | .ldReg x y => wordXYN 0x8 x y 0x0
  | .orReg x y => wordXYN 0x8 x y 0x1
  | .andReg x y => wordXYN 0x8 x y 0x2
  | .xorReg x y => wordXYN 0x8 x y 0x3
  | .addReg x y => wordXYN 0x8 x y 0x4
  | .subReg x y => wordXYN 0x8 x y 0x5
  | .shr x y => wordXYN 0x8 x y 0x6
  | .subn x y => wordXYN 0x8 x y 0x7
  | .shl x y => wordXYN 0x8 x y 0xE
  | .sneReg x y => wordXYN 0x9 x y 0x0
  | .ldI nnn => wordNNN 0xA nnn
  | .jpV0 nnn => wordNNN 0xB nnn
  | .rnd x kk => wordXKK 0xC x kk.toNat
  | .drw x y n => wordXYN 0xD x y n.val
  | .skp x => wordXKK 0xE x 0x9E
  | .sknp x => wordXKK 0xE x 0xA1
  | .ldVxDT x => wordXKK 0xF x 0x07
  | .ldVxK x => wordXKK 0xF x 0x0A
  | .ldDTVx x => wordXKK 0xF x 0x15
  | .ldSTVx x => wordXKK 0xF x 0x18
  | .addIVx x => wordXKK 0xF x 0x1E
  | .ldFVx x => wordXKK 0xF x 0x29
  | .ldBVx x => wordXKK 0xF x 0x33
  | .ldMemVx x => wordXKK 0xF x 0x55
  | .ldVxMem x => wordXKK 0xF x 0x65

/-- The bits of a word that take part in decoding to this instruction: all but those R79 lists as ignored. For SYS the
low four bits are the key and `nnn` is read by no meaning, yet the term keeps it, so all sixteen count. -/
def examinedMask : Instr → Word
  | .cls | .ret => 0xF00F
  | .seReg _ _ | .sneReg _ _ => 0xFFF0
  | .skp _ | .sknp _ => 0xFF0F
  | .sys _ | .jp _ | .call _ | .ldI _ | .jpV0 _ => 0xFFFF
  | .seByte _ _ | .sneByte _ _ | .ldByte _ _ | .addByte _ _ | .rnd _ _ => 0xFFFF
  | .ldReg _ _ | .orReg _ _ | .andReg _ _ | .xorReg _ _ | .addReg _ _ | .subReg _ _ => 0xFFFF
  | .shr _ _ | .subn _ _ | .shl _ _ | .drw _ _ _ => 0xFFFF
  | .ldVxDT _ | .ldVxK _ | .ldDTVx _ | .ldSTVx _ | .addIVx _ => 0xFFFF
  | .ldFVx _ | .ldBVx _ | .ldMemVx _ | .ldVxMem _ => 0xFFFF

end Sys2Proof
end

