-- ==== Sys2Proof/Config.lean ====
section
/-! DEFINITION. What the implementation fixes (spec 00_scope.md R5), the two open toggles (R6), and the free values: the
external random byte (R9, R158) and the toggles before the host sets them. The font bytes stand in Machine/Init.lean,
where a repair may mend them. -/

namespace Sys2Proof

namespace Config

/-- `MEM_SIZE`: 4096 bytes (R5). -/
abbrev memSize : Nat := 4096

/-- `PROG_BASE`: the first byte of a loaded ROM, 0x200 (R5). -/
abbrev progBase : Nat := 0x200

/-- `ROM_MAX`: the longest ROM, 0xE00 bytes (R5). -/
abbrev romMax : Nat := 0xE00

/-- `FONT_BASE`: the first byte of the font table, 0x050 (R5). -/
abbrev fontBase : Nat := 0x050

/-- `FONT_SIZE`: 80 bytes (R5). -/
abbrev fontSize : Nat := 80

/-- `GLYPH_SIZE`: 5 bytes (R5). -/
abbrev glyphSize : Nat := 5

/-- `STACK_DEPTH`: 16 entries (R5). -/
abbrev stackDepth : Nat := 16

/-- `FLAG_REG`: register 0xF is VF (R5, R23). -/
abbrev flagReg : Reg := 0xF

/-- FREE VALUE (log entry 1): the byte the external random generator supplies for the `n`-th RND of a run. No body:
nothing in Lean can evaluate it, so a claim about RND holds for every generator (R9, R158). -/
opaque rnd : Nat → Byte

/-- FREE VALUE (log entry 3): `QUIRK_SHIFT_USES_VY` of a machine whose host has not set it; no default exists (R6). -/
opaque quirkShiftUsesVy : Bool

/-- FREE VALUE (log entry 3): `QUIRK_LOADSTORE_INC_I` of a machine whose host has not set it; no default exists (R6). -/
opaque quirkLoadStoreIncI : Bool

end Config

/-- The two named toggles of R2, R6 and R197. The spec gives neither a default. -/
structure Quirks where
  /-- `QUIRK_SHIFT_USES_VY`: SHR and SHL read register Y when true, register X when false (R108, R110). -/
  shiftUsesVy : Bool
  /-- `QUIRK_LOADSTORE_INC_I`: the block transfers add x + 1 to `I` when true (R144). -/
  loadStoreIncI : Bool
  deriving DecidableEq, Repr

end Sys2Proof
end

