-- ==== Sys2Proof/Machine/Init.lean ====
section
/-! DEFINITION. The 80-byte font table of spec 20_memory.md R58, one glyph of five bytes a line (the bytes are the
spec's own general knowledge: log entry 6), what `init` leaves in each byte of memory (10_state.md R35), and the
toggles a run starts with when the host has set none. -/

namespace Sys2Proof.Machine

/-- Glyphs 0 to 7 (R58). -/
def fontLow : List Byte :=
  [0xF0, 0x90, 0x90, 0x90, 0xF0] ++ [0x20, 0x60, 0x20, 0x20, 0x70] ++
  [0xF0, 0x10, 0xF0, 0x80, 0xF0] ++ [0xF0, 0x10, 0xF0, 0x10, 0xF0] ++
  [0x90, 0x90, 0xF0, 0x10, 0x10] ++ [0xF0, 0x80, 0xF0, 0x10, 0xF0] ++
  [0xF0, 0x80, 0xF0, 0x90, 0xF0] ++ [0xF0, 0x10, 0x20, 0x40, 0x40]

/-- Glyphs 8 to F (R58). -/
def fontHigh : List Byte :=
  [0xF0, 0x90, 0xF0, 0x90, 0xF0] ++ [0xF0, 0x90, 0xF0, 0x10, 0xF0] ++
  [0xF0, 0x90, 0xF0, 0x90, 0x90] ++ [0xE0, 0x90, 0xE0, 0x90, 0xE0] ++
  [0xF0, 0x80, 0x80, 0x80, 0xF0] ++ [0xE0, 0x90, 0x90, 0x90, 0xE0] ++
  [0xF0, 0x80, 0xF0, 0x80, 0xF0] ++ [0xF0, 0x80, 0xF0, 0x80, 0x80]

/-- The font table: the glyph of digit `d` is bytes `5 * d` to `5 * d + 4` (R58). -/
def fontTable : List Byte := fontLow ++ fontHigh

/-- The byte `init` leaves at an address: the font in [0x050, 0x0A0), zero elsewhere (R35, R57, R190). It is what an
address that memory does not list reads as (log entry 18). -/
def resetByte (a : Nat) : Byte :=
  if Config.fontBase ≤ a ∧ a < Config.fontBase + Config.fontSize then fontTable.getD (a - Config.fontBase) 0 else 0

/-- The toggles before the host has set them: free values, since the spec gives neither a default (R2, R6, R197;
log entry 3). -/
def resetQuirks : Quirks := ⟨Config.quirkShiftUsesVy, Config.quirkLoadStoreIncI⟩

end Sys2Proof.Machine
end

