-- ==== Sys2Proof/Machine/Memory.lean ====
section
/-! DEFINITION. Main memory (spec 20_memory.md R50 to R53) as a canonical list of (address, byte) pairs: addresses
strictly rising, all below 4096, no entry equal to what the address holds after `init`. -/

namespace Sys2Proof.Machine

/-- The listed bytes of the 4096-byte space; an unlisted address reads as `resetByte` of it. -/
abbrev Memory := List Host.Cell

/-- The byte at address `a`, `a` already reduced modulo 4096. -/
def Memory.read : Memory → Nat → Byte
  | [], a => resetByte a
  | (b, u) :: m, a => if a = b then u else Memory.read m a

/-- The pair `(a, v)` put before `m`, unless `a` holds `v` after `init` anyway. -/
def Memory.consCell (a : Nat) (v : Byte) (m : Memory) : Memory :=
  if v = resetByte a then m else (a, v) :: m

/-- Memory with `v` at address `a`, in canonical form again. -/
def Memory.write : Memory → Nat → Byte → Memory
  | [], a, v => Memory.consCell a v []
  | (b, u) :: m, a, v =>
    if a < b then Memory.consCell a v ((b, u) :: m)
    else if a = b then Memory.consCell a v m
    else (b, u) :: Memory.write m a v

/-- Every listed address is at least `lo`, they rise strictly, each is below 4096, and no listed byte is the byte the
address holds after `init`. -/
def Memory.wfFrom : Nat → Memory → Bool
  | _, [] => true
  | lo, (b, u) :: m =>
    decide (lo ≤ b) && decide (b < Config.memSize) && decide (u ≠ resetByte b) && Memory.wfFrom (b + 1) m

/-- The canonical form: equal memories are equal lists. -/
def Memory.wf (m : Memory) : Bool := Memory.wfFrom 0 m

/-- Memory with a byte sequence written verbatim from address `a` upward (R193). -/
def Memory.writeBlock : Memory → Nat → List Byte → Memory
  | m, _, [] => m
  | m, a, v :: vs => Memory.writeBlock (Memory.write m a v) (a + 1) vs

end Sys2Proof.Machine
end

