-- ==== Sys2Proof/Machine/State.lean ====
section
/-! DEFINITION. The machine's state: the ten elements of spec 10_state.md R20, the keypad the host writes (R30), and
the model's own fields for what the spec makes inputs and outputs of a cycle (R9, R36, R95). -/

namespace Sys2Proof.Machine

/-- The error reports of R171. The first three are a cycle's, with the instruction word and its address (R170). -/
inductive Report where
  /-- Code 1: the word has no registered handler (R172). -/
  | decodeError (op a : Word)
  /-- Code 2: CALL at `sp = 16` (R173). -/
  | stackOverflow (op a : Word)
  /-- Code 3: RET at `sp = 0` (R174). -/
  | stackUnderflow (op a : Word)
  /-- Code 4: the ROM load was offered this many bytes, more than 0xE00 (R193). -/
  | romTooLarge (length : Nat)
  deriving DecidableEq, Repr

/-- The 16 key flags, true for pressed (R30). -/
abbrev Keypad := Vector Bool 16

/-- The framebuffer: 32 rows of 64 pixels, row 0 at the top and column 0 at the left (R31). -/
abbrev Video := Vector (Vector Bool 64) 32

structure State where
  /-- `mem`, 4096 bytes (R32, R50). -/
  mem : Memory
  /-- `V`, the general registers; VF is `V[15]` (R22, R23). -/
  V : Vector Byte 16
  /-- `I`, the index register (R26). -/
  I : Word
  /-- `pc` (R21). -/
  pc : Word
  /-- `stack`, the return addresses (R24). -/
  stack : Vector Word 16
  /-- `sp`, how many return addresses are held, 0 to 16 (R25). -/
  sp : Byte
  /-- `DT`, the delay timer (R27). -/
  DT : Byte
  /-- `ST`, the sound timer (R27). -/
  ST : Byte
  /-- `video`, the framebuffer (R31). -/
  video : Video
  /-- `opcode`, the instruction latch (R28). -/
  opcode : Word
  /-- `keypad`, the flags as the host last wrote them (R30, R195). -/
  keypad : Keypad
  /-- MODEL'S OWN (log entry 2): the host's keypad writes still to come, one before each coming cycle; when none is
  left the host leaves the flags as they are (R9, R30). -/
  keypadInputs : List Keypad
  /-- MODEL'S OWN (log entry 3): the two toggles, set by the host before a run and by nothing else (R6, R197). -/
  quirks : Quirks
  /-- MODEL'S OWN (log entry 1): how many random bytes have been consumed, the argument of `Config.rnd` (R9, R158). -/
  rndCount : Nat
  /-- MODEL'S OWN (log entry 4): the report the last cycle returned; no cycle reads it (R9, R95). -/
  report : Option Report
  deriving DecidableEq, Repr

/-- What stops the machine. The spec's own errors are reports beside a next state (R170), never one of these. -/
inductive Fault where
  /-- CALL or RET with `sp` above 16. Raised by CALL and RET only. Safe: R25 gives `sp` the legal values 0 to 16 and
  no run from a legal state reaches another, so nothing the hardware does is lost. -/
  | stackPointerOutOfRange
  deriving DecidableEq, Repr

/-- Why an instruction has no meaning. -/
inductive Refusal where
  /-- Raised by an arm of `exec` whose instruction has no meaning yet; no arm raises it now. Safe. -/
  | notModelled (mnemonic : String)
  deriving DecidableEq, Repr

/-- What a meaning answers. -/
abbrev Result := Host.Outcome State Fault Refusal

/-- The state after `init` (R35, R190): every register zero, `pc` at 0x200, memory as `resetByte` gives it. The
model's own fields are at the values log entries 1 to 4 name (DESIGN CHOICE). -/
def State.reset : State where
  mem := []
  V := Vector.replicate 16 0
  I := 0
  pc := 0x200
  stack := Vector.replicate 16 0
  sp := 0
  DT := 0
  ST := 0
  video := Vector.replicate 32 (Vector.replicate 64 false)
  opcode := 0
  keypad := Vector.replicate 16 false
  keypadInputs := []
  quirks := resetQuirks
  rndCount := 0
  report := none

end Sys2Proof.Machine
end

