-- ==== Sys2Proof/Machine/Ops.lean ====
section
/-! DEFINITION. The shared operations over registers and memory (spec 00_scope.md R11, 20_memory.md R52 to R54), and
raising an error as the one operation every erring handler calls (60_exceptions.md R170, R176). There is no return from
an error beside it: the spec has none to return from (R177). -/

namespace Sys2Proof.Machine

/-- `V[x] <- b` (R11). -/
def State.setReg (s : State) (x : Reg) (b : Byte) : State := { s with V := s.V.set x.val b }

/-- `I <- w` (R11). -/
def State.setI (s : State) (w : Word) : State := { s with I := w }

/-- `pc <- w` (R11). -/
def State.setPc (s : State) (w : Word) : State := { s with pc := w }

/-- `DT <- b` (R11). -/
def State.setDT (s : State) (b : Byte) : State := { s with DT := b }

/-- `ST <- b` (R11). -/
def State.setST (s : State) (b : Byte) : State := { s with ST := b }

/-- `video <- v`. -/
def State.setVideo (s : State) (v : Video) : State := { s with video := v }

/-- `sp <- k` (R11). -/
def State.setSp (s : State) (k : Byte) : State := { s with sp := k }

/-- `stack[k] <- w` (R11, R24). -/
def State.setStack (s : State) (k : Fin 16) (w : Word) : State := { s with stack := s.stack.set k.val w }

/-- The address that drives the memory: the low 12 bits of the one computed (R52, R53, log entry 7). -/
def wrapAddr (addr : Nat) : Nat := addr % Config.memSize

/-- `MemRead(addr, 1)` (R52). -/
def State.memRead (s : State) (addr : Nat) : Byte := Memory.read s.mem (wrapAddr addr)

/-- `MemWrite(addr, 1, v)` (R53). -/
def State.memWrite (s : State) (addr : Nat) (v : Byte) : State :=
  { s with mem := Memory.write s.mem (wrapAddr addr) v }

/-- `MemRead(addr, 2)`, big-endian: the fetch's read (R54). -/
def State.memReadWord (s : State) (addr : Nat) : Word := joinBytes (s.memRead addr) (s.memRead (addr + 1))

/-- The bytes stored one after another from `addr` upward, each address reduced on its own (R55, R59). -/
def State.memWriteBytes (s : State) : Nat → List Byte → State
  | _, [] => s
  | addr, v :: vs => State.memWriteBytes (s.memWrite addr v) (addr + 1) vs

/-- The address the running instruction was fetched from: `pc` minus 2, since the fetch has advanced it (R170). -/
def State.instrAddr (s : State) : Word := s.pc - 2

/-- `raise E(op, a)`: the report becomes `E` with the latched word and its address, and nothing else changes (R11,
R170, R176). -/
def State.raiseError (s : State) (error : Word → Word → Report) : State :=
  { s with report := some (error s.opcode s.instrAddr) }

/-- The fetch adds 2 to `pc`, and so does a taken skip, modulo 65536 (R92, R124). -/
def State.advancePc (s : State) : State := s.setPc (s.pc + 2)

/-- The body of every skip: `pc` advances by an additional 2 when the condition holds (R124). -/
def State.skipIf (s : State) (condition : Bool) : State := if condition then s.advancePc else s

/-- The one stop of the stack instructions: `sp` outside the legal values 0 to 16 of R25 (see `Fault`; log
entry 13). -/
def withStackIndex (k : Byte) (body : Fin 16 → State) : Result :=
  if h : k.toNat < Config.stackDepth then .next (body ⟨k.toNat, h⟩) else .fault .stackPointerOutOfRange

end Sys2Proof.Machine
end

