-- ==== Sys2Proof/Machine/Operands.lean ====
section
/-! DEFINITION. Every operand form the spec gives an instruction: a register, a zero-extended immediate, the 4-bit
selector of R150, the quirk-dependent shift source of R108, the keypad, and the bytes reached through `I` (R147). -/

namespace Sys2Proof.Machine

/-- `V[x]` (R11). -/
def State.reg (s : State) (x : Reg) : Byte := s.V[x]

/-- `zext_16(nnn)` (R73). -/
def zextAddr (nnn : BitVec 12) : Word := nnn.setWidth 16

/-- `zext_16(b)` for a byte (R128, R141). -/
def zextByte (b : Byte) : Word := b.setWidth 16

/-- A register's low four bits, which select one of 16 things (R150, log entry 8). -/
def selector (b : Byte) : Fin 16 := (b.extractLsb' 0 4).toFin

/-- The shift instructions' source (R108, R110). -/
def State.shiftSource (s : State) (x y : Reg) : Byte :=
  if s.quirks.shiftUsesVy then s.reg y else s.reg x

/-- `key(k)` (R11, R30). -/
def State.key (s : State) (k : Fin 16) : Bool := s.keypad[k]

/-- The least pressed key, if any is pressed (R155, log entry 9). -/
def State.leastKey (s : State) : Option (Fin 16) := (List.finRange 16).find? fun k => s.key k

/-- The address of byte `i` of a data access: `I + i`, still to be reduced by the memory (R147). -/
def State.dataAddr (s : State) (i : Nat) : Nat := s.I.toNat + i

/-- Registers V0 to Vx in ascending order (R145). -/
def regsUpTo (x : Reg) : List Reg := (List.finRange 16).take (x.val + 1)

/-- `I` after a block transfer of registers 0 to x (R144; log entry 14). -/
def State.indexAfterBlock (s : State) (x : Reg) : Word :=
  if s.quirks.loadStoreIncI then s.I + BitVec.ofNat 16 (x.val + 1) else s.I

/-- The glyph address of a digit, 0x050 + 5 * d (R142). -/
def glyphAddr (d : Fin 16) : Word := BitVec.ofNat 16 (Config.fontBase + Config.glyphSize * d.val)

/-- The three decimal digits of a byte, hundreds first (R143). -/
def bcdDigits (v : Byte) : List Byte :=
  [BitVec.ofNat 8 (v.toNat / 100), BitVec.ofNat 8 (v.toNat / 10 % 10), BitVec.ofNat 8 (v.toNat % 10)]

end Sys2Proof.Machine
end

