-- ==== Sys2Proof/Machine/Flags.lean ====
section
/-! DEFINITION. Every flag value the spec computes, and the order in which a flag-writing instruction writes its result
and then VF (spec 10_state.md R23, 41_alu.md R100, R101, R113). -/

namespace Sys2Proof.Machine

/-- A flag value is exactly 0 or 1 (R23). -/
def flagByte (f : Bool) : Byte := if f then 1 else 0

/-- The carry out of bit 7: the exact sum passes 255 (R106, R113 c). -/
def carryFlag (a b : Byte) : Byte := flagByte (decide (a.toNat + b.toNat > 255))

/-- 1 when `a - b` does not borrow (R107, R113 d). -/
def noBorrowFlag (a b : Byte) : Byte := flagByte (decide (a.toNat ≥ b.toNat))

/-- The bit a right shift moves out, bit 0 before the shift (R108). -/
def shiftedOutRight (v : Byte) : Byte := flagByte (v.getLsbD 0)

/-- The bit a left shift moves out, bit 7 before the shift (R110). -/
def shiftedOutLeft (v : Byte) : Byte := flagByte (v.getLsbD 7)

/-- `VF <- f`. -/
def State.setVF (s : State) (f : Byte) : State := s.setReg Config.flagReg f

/-- The result into `V[x]`, then the flag into VF, so that with `x = 0xF` the flag is what remains (R101, log entry
10). -/
def State.writeWithFlag (s : State) (x : Reg) (result flag : Byte) : State := (s.setReg x result).setVF flag

end Sys2Proof.Machine
end

