-- ==== Sys2Proof/Machine/Control.lean ====
section
/-! DEFINITION. Control transfer, subroutines and register skips (spec 42_control_flow.md). In every handler `pc` already
holds `a + 2` (R92, R129). -/

namespace Sys2Proof.Machine

/-- SYS addr: the explicit no-op; `nnn` is not read (R120; log entry 21). -/
def execSys (_nnn : BitVec 12) (s : State) : Result := .next s

/-- JP addr (R121). -/
def execJp (nnn : BitVec 12) (s : State) : Result := .next (s.setPc (zextAddr nnn))

/-- JP V0, addr: the sum kept at 16 bits (R128; log entry 12). -/
def execJpV0 (nnn : BitVec 12) (s : State) : Result := .next (s.setPc (zextAddr nnn + zextByte (s.reg 0)))

/-- CALL addr: at `sp = 16` StackOverflow and nothing else; below it the advanced `pc` is pushed (R122, R173). -/
def execCall (nnn : BitVec 12) (s : State) : Result :=
  if s.sp = 16 then .next (s.raiseError .stackOverflow)
  else withStackIndex s.sp fun k =>
    ((s.setStack k s.pc).setSp (s.sp + 1)).setPc (zextAddr nnn)

/-- RET: at `sp = 0` StackUnderflow and nothing else; above it `sp` falls first, then `pc` is loaded from that slot,
which keeps its value (R123, R174; log entry 22). -/
def execRet (s : State) : Result :=
  if s.sp = 0 then .next (s.raiseError .stackUnderflow)
  else withStackIndex (s.sp - 1) fun k => (s.setSp (s.sp - 1)).setPc s.stack[k]

/-- SE Vx, byte (R124). -/
def execSeByte (x : Reg) (kk : Byte) (s : State) : Result := .next (s.skipIf (s.reg x == kk))

/-- SNE Vx, byte (R125). -/
def execSneByte (x : Reg) (kk : Byte) (s : State) : Result := .next (s.skipIf (s.reg x != kk))

/-- SE Vx, Vy (R126). -/
def execSeReg (x y : Reg) (s : State) : Result := .next (s.skipIf (s.reg x == s.reg y))

/-- SNE Vx, Vy (R127). -/
def execSneReg (x y : Reg) (s : State) : Result := .next (s.skipIf (s.reg x != s.reg y))

end Sys2Proof.Machine
end

