-- ==== Sys2Proof/Machine/IndexMemory.lean ====
section
/-! DEFINITION. The index register, BCD and the register-block transfers (spec 43_index_memory.md). No one of them writes
VF as a side effect or can raise an error. -/

namespace Sys2Proof.Machine

/-- LD I, addr (R140). -/
def execLdI (nnn : BitVec 12) (s : State) : Result := .next (s.setI (zextAddr nnn))

/-- ADD I, Vx: modulo 65536, VF not written (R141). -/
def execAddIVx (x : Reg) (s : State) : Result := .next (s.setI (s.I + zextByte (s.reg x)))

/-- LD F, Vx: the glyph of the register's low four bits (R142). -/
def execLdFVx (x : Reg) (s : State) : Result := .next (s.setI (glyphAddr (selector (s.reg x))))

/-- LD B, Vx: hundreds, tens and ones at `I`, `I + 1` and `I + 2` (R143). -/
def execLdBVx (x : Reg) (s : State) : Result := .next (s.memWriteBytes (s.dataAddr 0) (bcdDigits (s.reg x)))

/-- LD [I], Vx: V0 to Vx to ascending addresses from `I`, then `I` (R144, R145). -/
def execLdMemVx (x : Reg) (s : State) : Result :=
  .next ((s.memWriteBytes (s.dataAddr 0) ((regsUpTo x).map s.reg)).setI (s.indexAfterBlock x))

/-- One load of the block: `V[i] <- MemRead(I + i, 1)` (R146). -/
def State.loadOne (s : State) (i : Reg) : State := s.setReg i (s.memRead (s.dataAddr i.val))

/-- LD Vx, [I]: V0 to Vx from ascending addresses from `I`, then `I` (R144, R146). -/
def execLdVxMem (x : Reg) (s : State) : Result :=
  .next (((regsUpTo x).foldl State.loadOne s).setI (s.indexAfterBlock x))

end Sys2Proof.Machine
end

