-- ==== Sys2Proof/Machine/Io.lean ====
section
/-! DEFINITION. The framebuffer, keypad, timer and random-number instructions (spec 44_io_timers.md). -/

namespace Sys2Proof.Machine

/-- `pixel(cx, cy)` (R11, R31). -/
def pixel (v : Video) (cx : Fin 64) (cy : Fin 32) : Bool := v[cy][cx]

/-- `pixel(cx, cy) <- pixel(cx, cy) ^ 1` (R152). -/
def flipPixel (v : Video) (cx : Fin 64) (cy : Fin 32) : Video :=
  v.set cy.val (v[cy].set cx.val (!pixel v cx cy))

/-- A framebuffer in the course of a draw, with VF as the draw has it so far (R152). -/
structure Canvas where
  /-- The framebuffer as drawn so far. -/
  video : Video
  /-- A set pixel has been cleared. -/
  hit : Bool
  deriving DecidableEq, Repr

/-- A blank framebuffer (R151). -/
def blankVideo : Video := Vector.replicate 32 (Vector.replicate 64 false)

/-- The pixel of column `col` of a sprite row: clipped past the right edge, else flipped where the sprite byte has a 1,
bit 7 leftmost (R152). -/
def Canvas.drawBit (x0 : Nat) (cy : Fin 32) (b : Byte) (c : Canvas) (col : Nat) : Canvas :=
  if h : x0 + col < 64 then
    if b.getLsbD (7 - col) then
      ⟨flipPixel c.video ⟨x0 + col, h⟩ cy, c.hit || pixel c.video ⟨x0 + col, h⟩ cy⟩
    else c
  else c

/-- A sprite row of eight pixels on screen row `cy` (R152). -/
def Canvas.drawRow (x0 : Nat) (cy : Fin 32) (b : Byte) (c : Canvas) : Canvas :=
  (List.range 8).foldl (Canvas.drawBit x0 cy b) c

/-- The sprite of `n` rows with its origin at (x0, y0): a row past the bottom edge is clipped (R152). -/
def Canvas.drawSprite (x0 y0 n : Nat) (sprite : Nat → Byte) (c : Canvas) : Canvas :=
  (List.range n).foldl
    (fun c row => if h : y0 + row < 32 then c.drawRow x0 ⟨y0 + row, h⟩ (sprite row) else c) c

/-- CLS: every pixel 0, VF not written (R151). -/
def execCls (s : State) : Result := .next (s.setVideo blankVideo)

/-- The canvas a DRW leaves: the origin is read before VF is reset and is taken modulo the screen (R152; log entry
16). -/
def State.drawn (s : State) (x y : Reg) (n : Fin 16) : Canvas :=
  Canvas.drawSprite ((s.reg x).toNat % 64) ((s.reg y).toNat % 32) n.val
    (fun row => s.memRead (s.dataAddr row)) ⟨s.video, false⟩

/-- DRW Vx, Vy, nibble: VF is 1 when a set pixel was cleared, else 0 (R152). -/
def execDrw (x y : Reg) (n : Fin 16) (s : State) : Result :=
  .next ((s.setVideo (s.drawn x y n).video).setVF (flagByte (s.drawn x y n).hit))

/-- SKP Vx (R153). -/
def execSkp (x : Reg) (s : State) : Result := .next (s.skipIf (s.key (selector (s.reg x))))

/-- SKNP Vx (R154). -/
def execSknp (x : Reg) (s : State) : Result := .next (s.skipIf (!s.key (selector (s.reg x))))

/-- The key wait's effect: no key pressed, `pc` goes back to the instruction; else the least pressed key into `V[x]`
(R155). -/
def State.waitKey (s : State) (x : Reg) : Option (Fin 16) → State
  | none => s.setPc (s.pc - 2)
  | some k => s.setReg x (BitVec.ofNat 8 k.val)

/-- LD Vx, K (R155). -/
def execLdVxK (x : Reg) (s : State) : Result := .next (s.waitKey x s.leastKey)

/-- LD Vx, DT: the value before this cycle's tick (R156). -/
def execLdVxDT (x : Reg) (s : State) : Result := .next (s.setReg x s.DT)

/-- LD DT, Vx (R157). -/
def execLdDTVx (x : Reg) (s : State) : Result := .next (s.setDT (s.reg x))

/-- LD ST, Vx (R159). -/
def execLdSTVx (x : Reg) (s : State) : Result := .next (s.setST (s.reg x))

/-- The next byte of the external generator; one is consumed (R9, R158). -/
def State.consumeRnd (s : State) : State := { s with rndCount := s.rndCount + 1 }

/-- RND Vx, byte: the free random byte masked by the immediate (R158). -/
def execRnd (x : Reg) (kk : Byte) (s : State) : Result :=
  .next (s.consumeRnd.setReg x (Config.rnd s.rndCount &&& kk))

end Sys2Proof.Machine
end

