-- ==== Sys2Proof/Machine/Cycle.lean ====
section
/-! DEFINITION. The one step the machine has, in its parts (spec 40_cycle_driver.md R90 to R95): the host's keypad write,
fetch and advance, execute or raise, timer tick. -/

namespace Sys2Proof.Machine

/-- What the host writes before a cycle: the next of its keypad patterns, or nothing (R30, R195, log entry 2). -/
def State.takeKeypad (s : State) : State :=
  match s.keypadInputs with
  | [] => s
  | pattern :: later => { s with keypad := pattern, keypadInputs := later }

/-- The word the next cycle fetches: two bytes at `pc`, big-endian (R91). -/
def State.fetchWord (s : State) : Word := s.memReadWord s.pc.toNat

/-- `opcode <- MemRead(pc, 2)` and `report <- None` (R90, R91, R95). -/
def State.latch (s : State) : State := { s with opcode := s.fetchWord, report := none }

/-- Everything of a cycle before its handler: the keypad as the host wrote it, the fetch, the advance (R90 to R92). -/
def State.beginCycle (s : State) : State := s.takeKeypad.latch.advancePc

/-- One timer's tick: less one while it is above 0 (R94). -/
def tickTimer (t : Byte) : Byte := if t.toNat > 0 then t - 1 else t

/-- The last act of every cycle: both timers tick (R94). -/
def State.tick (s : State) : State := { s with DT := tickTimer s.DT, ST := tickTimer s.ST }

/-- The tick after a handler; a stop stays a stop. -/
def tickResult : Result → Result
  | .next s => .next s.tick
  | .fault r => .fault r
  | .refused r => .refused r

/-- `Execute(op)`: exactly one handler, or DecodeError (R93, R172). -/
def State.execute (s : State) : Result :=
  match decode s.opcode with
  | .ok i => exec i s
  | .error _ => .next (s.raiseError .decodeError)

/-- One cycle (R90). -/
def State.cycle (s : State) : Result := tickResult s.beginCycle.execute

end Sys2Proof.Machine
end

