-- ==== Sys2Proof/Machine/Step.lean ====
section
/-! DEFINITION. The step, one cycle (spec 40_cycle_driver.md R90), and how the host of the model places the next
instruction. -/

namespace Sys2Proof.Machine

/-- One machine cycle (R90). -/
def step : State → Host.Outcome State Fault Refusal := State.cycle

/-- `s` with the instruction `w` of `nbits` bits stored where the next fetch reads: its high byte at `pc`, its low byte
at `pc + 1`, each modulo 4096 (R54, R91; log entry 17). Nothing else changes. -/
def State.withFetchWord (s : State) (nbits w : Nat) : State :=
  s.memWriteBytes s.pc.toNat (splitWord (BitVec.ofNat 16 (w % 2 ^ nbits)))

end Sys2Proof.Machine
end

