-- ==== Sys2Proof/Machine/Ports.lean ====
section
/-! DEFINITION. The host's five interfaces as far as the core sees them (spec 70_reset_and_hazards.md R192 to R197). The
host acts only between cycles (R8); cycle invocation itself (R196) is `step`. -/

namespace Sys2Proof.Machine

/-- ROM load: the bytes that fit are written verbatim from 0x200, and a longer sequence is reported (R193; log entry
20). -/
def State.loadRom (s : State) (rom : List Byte) : State × Option Report :=
  ({ s with mem := Memory.writeBlock s.mem Config.progBase (rom.take Config.romMax) },
   if rom.length > Config.romMax then some (.romTooLarge rom.length) else none)

/-- Framebuffer export, read-only (R194). -/
def State.framebuffer (s : State) : Video := s.video

/-- Keypad import: the host writes the flags between cycles (R195). -/
def State.writeKeypad (s : State) (flags : Keypad) : State := { s with keypad := flags }

/-- The patterns the host will write, one before each coming cycle (R195; log entry 2). -/
def State.planKeypad (s : State) (patterns : List Keypad) : State := { s with keypadInputs := patterns }

/-- Quirk configuration: before the first cycle, once a run (R197). -/
def State.configure (s : State) (q : Quirks) : State := { s with quirks := q }

/-- The launch state of a run: `init`, the toggles, the ROM (R192). A ROM whose load reports is no valid launch: it is
refused with the load's report, and no run starts from it (R193; log entry 20). -/
def State.launch (q : Quirks) (rom : List Byte) : Except Report State :=
  match (State.reset.configure q).loadRom rom with
  | (s, none) => .ok s
  | (_, some report) => .error report

/-- The numeric codes of R171. -/
def Report.code : Report → Nat
  | .decodeError _ _ => 1
  | .stackOverflow _ _ => 2
  | .stackUnderflow _ _ => 3
  | .romTooLarge _ => 4

end Sys2Proof.Machine
end

