-- ==== Sys2Proof/Safety.lean ====
section
/-! DEFINITION. The terms claims are stated in: a sound state, a safe run, which instructions may write which element of
the state, and the pixels a sprite covers. No definition of the machine uses one of these. -/

namespace Sys2Proof.Machine

/-- The invariant: memory is in its canonical form, which also keeps every listed address below 4096 (R51), and `sp`
has one of its legal values 0 to 16 (R25). -/
abbrev State.Inv (s : State) : Prop := Memory.wf s.mem = true ∧ s.sp.toNat ≤ 16

/-- The run of `k` cycles from `s` raises no report and does not stop: the spec's "no report so far" (R177). -/
def State.cleanRun : Nat → State → Prop
  | 0, _ => True
  | k + 1, s => ∃ t, step s = .next t ∧ t.report = none ∧ State.cleanRun k t

/-- A timer after its tick, in numbers: one less, and 0 stays 0 (R27, R94). -/
abbrev ticked (t : Byte) : Byte := BitVec.ofNat 8 (t.toNat - 1)

/-- What a cycle does besides running a handler, from the state before the cycle: the host's keypad write, the latch and
the advance (R90 to R92). -/
abbrev State.fetched (s : State) : State :=
  { s with
    keypad := s.keypadInputs.headD s.keypad
    keypadInputs := s.keypadInputs.tail
    opcode := s.fetchWord
    pc := s.pc + 2
    report := none }

end Sys2Proof.Machine

namespace Sys2Proof

/-- The instructions R21 names as writing `pc`. -/
def Instr.writesPc : Instr → Bool
  | .jp _ | .call _ | .ret | .jpV0 _ | .ldVxK _ => true
  | .seByte _ _ | .sneByte _ _ | .seReg _ _ | .sneReg _ _ | .skp _ | .sknp _ => true
  | _ => false

/-- The instructions that store to `mem` (R59). -/
def Instr.writesMem : Instr → Bool
  | .ldBVx _ | .ldMemVx _ => true
  | _ => false

/-- The instructions R31 names as mutating the framebuffer. -/
def Instr.writesVideo : Instr → Bool
  | .cls | .drw _ _ _ => true
  | _ => false

/-- The instructions R26 names as writing `I`; the last two do so under the toggle only. -/
def Instr.writesIndex : Instr → Bool
  | .ldI _ | .addIVx _ | .ldFVx _ | .ldMemVx _ | .ldVxMem _ => true
  | _ => false

/-- The instructions R23 names as writing VF as a side effect. -/
def Instr.writesFlag : Instr → Bool
  | .addReg _ _ | .subReg _ _ | .subn _ _ | .shr _ _ | .shl _ _ | .drw _ _ _ => true
  | _ => false

/-- The general registers an instruction names as its destination, VF as a side effect apart. -/
def Instr.destinations : Instr → List Reg
  | .ldByte x _ | .addByte x _ | .ldReg x _ | .orReg x _ | .andReg x _ | .xorReg x _ => [x]
  | .addReg x _ | .subReg x _ | .shr x _ | .subn x _ | .shl x _ => [x]
  | .rnd x _ | .ldVxDT x | .ldVxK x => [x]
  | .ldVxMem x => (List.finRange 16).filter fun i => decide (i ≤ x)
  | _ => []

/-- The instructions whose handlers read the keypad (R30). -/
def Instr.readsKeypad : Instr → Bool
  | .skp _ | .sknp _ | .ldVxK _ => true
  | _ => false

/-- The four instructions whose handlers read a toggle (R83). -/
def Instr.readsQuirks : Instr → Bool
  | .shr _ _ | .shl _ _ | .ldMemVx _ | .ldVxMem _ => true
  | _ => false

end Sys2Proof

namespace Sys2Proof.Machine

/-- Whether DRW Vx, Vy, n in state `s` has a 1 bit of its sprite over the pixel (px, py): the origin modulo the screen,
nothing past the right or bottom edge, bit 7 of a sprite byte leftmost (R152). -/
def State.spriteBit (s : State) (x y : Reg) (n : Fin 16) (px : Fin 64) (py : Fin 32) : Bool :=
  decide ((s.reg x).toNat % 64 ≤ px.val) && decide (px.val < (s.reg x).toNat % 64 + 8) &&
  decide ((s.reg y).toNat % 32 ≤ py.val) && decide (py.val < (s.reg y).toNat % 32 + n.val) &&
  (s.memRead (s.I.toNat + (py.val - (s.reg y).toNat % 32))).getLsbD (7 - (px.val - (s.reg x).toNat % 64))

end Sys2Proof.Machine
end

