-- ==== Sys2Proof/Certificates/Slice0/Obligations.lean ====
section
/-! DEFINITION. The statements for the provers. `exec i s` runs a handler in a state whose `pc` the fetch has already
advanced (spec 40_cycle_driver.md R92); `t = { s with V := t.V }` says that `t` agrees with `s` in every element of the
state but the named ones. -/

open Sys2Proof Sys2Proof.Machine

/-! ### Encoding -/

/-- One word for each of the 35 rows of R80, in the table's order, written out from the row's canonical encoding. 600A,
6105 (the row of LD Vx, byte), 8014 and 1200 are the words the source document shows, and it names 0nnn; every other
key is the spec's general knowledge (D1, log entry 5). -/
def Obligations.WordsOfTheMapDecode : Prop :=
  (decode 0x0123 = .ok (.sys 0x123) ∧ decode 0x00E0 = .ok .cls ∧ decode 0x00EE = .ok .ret ∧
    decode 0x1200 = .ok (.jp 0x200) ∧ decode 0x2ABC = .ok (.call 0xABC) ∧ decode 0x3A5C = .ok (.seByte 0xA 0x5C) ∧
    decode 0x4B6D = .ok (.sneByte 0xB 0x6D) ∧ decode 0x5AB0 = .ok (.seReg 0xA 0xB) ∧
    decode 0x600A = .ok (.ldByte 0x0 0x0A) ∧ decode 0x6105 = .ok (.ldByte 0x1 0x05) ∧
    decode 0x7C8E = .ok (.addByte 0xC 0x8E)) ∧
  (decode 0x8AB0 = .ok (.ldReg 0xA 0xB) ∧ decode 0x8AB1 = .ok (.orReg 0xA 0xB) ∧
    decode 0x8AB2 = .ok (.andReg 0xA 0xB) ∧ decode 0x8AB3 = .ok (.xorReg 0xA 0xB) ∧
    decode 0x8014 = .ok (.addReg 0x0 0x1) ∧ decode 0x8AB5 = .ok (.subReg 0xA 0xB) ∧
    decode 0x8AB6 = .ok (.shr 0xA 0xB) ∧ decode 0x81E7 = .ok (.subn 0x1 0xE) ∧ decode 0x8ABE = .ok (.shl 0xA 0xB) ∧
    decode 0x9AB0 = .ok (.sneReg 0xA 0xB)) ∧
  (decode 0xA5CD = .ok (.ldI 0x5CD) ∧ decode 0xB6DE = .ok (.jpV0 0x6DE) ∧ decode 0xCA5C = .ok (.rnd 0xA 0x5C) ∧
    decode 0xD125 = .ok (.drw 0x1 0x2 0x5) ∧ decode 0xEA9E = .ok (.skp 0xA) ∧ decode 0xE7A1 = .ok (.sknp 0x7)) ∧
  (decode 0xFA07 = .ok (.ldVxDT 0xA) ∧ decode 0xF30A = .ok (.ldVxK 0x3) ∧ decode 0xFB15 = .ok (.ldDTVx 0xB) ∧
    decode 0xFC18 = .ok (.ldSTVx 0xC) ∧ decode 0xFD1E = .ok (.addIVx 0xD) ∧ decode 0xFE29 = .ok (.ldFVx 0xE) ∧
    decode 0xF533 = .ok (.ldBVx 0x5) ∧ decode 0xF655 = .ok (.ldMemVx 0x6) ∧ decode 0xF265 = .ok (.ldVxMem 0x2))

/-- Decode and encode agree: the canonical word of a well-formed instruction decodes to it, every operand at every value
(R79, R80; the keys and the canonical values of ignored bits are the spec's general knowledge, D1, log entry 5). -/
def Obligations.DecodeOfEncodeIsTheInstruction : Prop :=
  ∀ i : Instr, i.WellFormed → decode (encode i) = .ok i

/-- The other direction: what decodes is well formed, and the word agrees with the instruction's canonical word on every
bit that takes part in decoding (R79, R80; which bits those are is the spec's decision D2, log entry 15, and the keys are
D1, log entry 5). -/
def Obligations.DecodedWordAgreesWithItsEncoding : Prop :=
  ∀ (w : Word) (i : Instr), decode w = .ok i →
    i.WellFormed ∧ encode i &&& examinedMask i = w &&& examinedMask i

/-- The bits R79 calls ignored do not matter: a word that agrees with `w` on the examined bits decodes as `w` does. The
literal reading of the dispatcher is the spec's decision D2 (log entry 15). -/
def Obligations.IgnoredBitsDoNotChangeDecoding : Prop :=
  ∀ (w w' : Word) (i : Instr), decode w = .ok i → w' &&& examinedMask i = w &&& examinedMask i → decode w' = .ok i

/-- The words that are no instruction are exactly those of R81. The registered keys are the spec's general knowledge
(D1, log entry 5). -/
def Obligations.IllegalWordsAreTheUnregisteredKeys : Prop :=
  ∀ w : Word, (∃ r, decode w = .error r) ↔
    (w.toNat / 4096 = 0x8 ∧ w.toNat % 16 ∈ [0x8, 0x9, 0xA, 0xB, 0xC, 0xD, 0xF]) ∨
    (w.toNat / 4096 = 0xE ∧ w.toNat % 16 ∉ [0x1, 0xE]) ∨
    (w.toNat / 4096 = 0xF ∧ w.toNat % 256 ∉ [0x07, 0x0A, 0x15, 0x18, 0x1E, 0x29, 0x33, 0x55, 0x65])

/-! ### The cycle -/

/-- A step whose fetched word decodes is the instruction's handler in the fetched state, and then, where it gives a next
state, the timers' tick (R90 to R94). The host's keypad write and the report in the fetched state are the model's choice
(log entries 2 and 4); the advance of `pc` modulo 65536 is the spec's decision D5 (log entry 12). -/
def Obligations.StepRunsTheDecodedInstruction : Prop :=
  (∀ (s : State) (i : Instr), decode s.fetchWord = .ok i → step s = tickResult (exec i s.fetched)) ∧
  (∀ t : State, tickResult (.next t) = .next { t with DT := ticked t.DT, ST := ticked t.ST }) ∧
  (∀ r : Fault, tickResult (.fault r) = .fault r)

/-- `withFetchWord` places a whole instruction word where the next step fetches it (R54, R91; it stands for the host's
load, log entry 17; addresses wrap by the spec's decision D4, log entry 7). -/
def Obligations.PlacedWordIsFetched : Prop :=
  ∀ (s : State) (w : Word), Memory.wf s.mem = true → (s.withFetchWord 16 w.toNat).fetchWord = w

/-- The latch (R28): the cycle overwrites it with the two bytes at `pc`, the byte at the lower address high (R54, R91), it
keeps that value to the end of the cycle, and what it held before is read by nothing. Where the second address passes
0xFFF it wraps, by the spec's decision D4 (log entry 7). That the latched word is what is dispatched is the statement
StepRunsTheDecodedInstruction. -/
def Obligations.OpcodeLatchHoldsTheFetchedWord : Prop :=
  (∀ (s t : State), step s = .next t →
    t.opcode.toNat = 256 * (s.memRead s.pc.toNat).toNat + (s.memRead (s.pc.toNat + 1)).toNat) ∧
  (∀ (s : State) (w : Word), step { s with opcode := w } = step s)

/-- An illegal word changes nothing beyond the fetch and the tick, and is reported with its address (R172, R176). That
the run can go on after it is the spec's decision D6 (log entry 4). -/
def Obligations.IllegalWordReportsDecodeError : Prop :=
  ∀ (s : State) (r : DecodeReject), decode s.fetchWord = .error r →
    step s = .next { s.fetched with
      DT := ticked s.DT, ST := ticked s.ST, report := some (.decodeError s.fetchWord s.pc) }

/-- From every state with a legal `sp` the cycle gives a next state: the machine cannot be stuck and never stops (R90). -/
def Obligations.CycleIsTotal : Prop :=
  ∀ s : State, s.sp.toNat ≤ 16 → ∃ t, step s = .next t

/-- From every sound state the machine runs for ever, soundly: any number of cycles gives a next state, and that state is
sound again (R90, R96). -/
def Obligations.RunsFromSoundStatesNeverStop : Prop :=
  ∀ (k : Nat) (s : State), s.Inv → ∃ t, Host.Core.run core k s = .next t ∧ State.Inv t

/-- Every step keeps the invariant: memory canonical, `sp` from 0 to 16 (R25, R51). -/
def Obligations.StepKeepsTheInvariant : Prop :=
  ∀ s t : State, s.Inv → step s = .next t → t.Inv

/-- The invariant holds after `init`. -/
def Obligations.ResetMeetsTheInvariant : Prop := State.reset.Inv

/-- The state after `init` (R35, R190), the 80 font bytes written out glyph by glyph from R58's table, which the spec
marks as general knowledge (D23, log entry 6); nothing is said of the model's own fields. -/
def Obligations.ResetIsTheInitTable : Prop :=
  State.reset.pc = 0x200 ∧ (∀ x, State.reset.reg x = 0) ∧ State.reset.I = 0 ∧ State.reset.sp = 0 ∧
  (∀ k : Fin 16, State.reset.stack[k] = 0) ∧ State.reset.DT = 0 ∧ State.reset.ST = 0 ∧ State.reset.opcode = 0 ∧
  (∀ px py, pixel State.reset.video px py = false) ∧ (∀ k, State.reset.key k = false) ∧
  (∀ a, a < 0x050 → State.reset.memRead a = 0) ∧
  (List.range 80).map (fun k => State.reset.memRead (0x050 + k)) =
      ([0xF0, 0x90, 0x90, 0x90, 0xF0] ++ [0x20, 0x60, 0x20, 0x20, 0x70] ++
        [0xF0, 0x10, 0xF0, 0x80, 0xF0] ++ [0xF0, 0x10, 0xF0, 0x10, 0xF0] ++
        [0x90, 0x90, 0xF0, 0x10, 0x10] ++ [0xF0, 0x80, 0xF0, 0x10, 0xF0] ++
        [0xF0, 0x80, 0xF0, 0x90, 0xF0] ++ [0xF0, 0x10, 0x20, 0x40, 0x40] ++
        [0xF0, 0x90, 0xF0, 0x90, 0xF0] ++ [0xF0, 0x90, 0xF0, 0x10, 0xF0] ++
        [0xF0, 0x90, 0xF0, 0x90, 0x90] ++ [0xE0, 0x90, 0xE0, 0x90, 0xE0] ++
        [0xF0, 0x80, 0x80, 0x80, 0xF0] ++ [0xE0, 0x90, 0x90, 0x90, 0xE0] ++
        [0xF0, 0x80, 0xF0, 0x80, 0xF0] ++ [0xF0, 0x80, 0xF0, 0x80, 0x80] : List Byte) ∧
  (∀ a, 0x0A0 ≤ a → a < 4096 → State.reset.memRead a = 0)

/-- Both timers in every cycle, whatever word was fetched (R27, R94): one less, 0 stays 0; a cycle that loads a timer
ticks the value it loaded (R157, R159). That the timers tick after an error too is the spec's decision D6 (log entry 4);
the keys of the two loads are its general knowledge (D1, log entry 5). -/
def Obligations.EveryCycleTicksBothTimers : Prop :=
  ∀ s t : State, step s = .next t →
    (∀ x, decode s.fetchWord = .ok (.ldDTVx x) → t.DT.toNat = (s.reg x).toNat - 1) ∧
    ((∀ x, decode s.fetchWord ≠ .ok (.ldDTVx x)) → t.DT.toNat = s.DT.toNat - 1) ∧
    (∀ x, decode s.fetchWord = .ok (.ldSTVx x) → t.ST.toNat = (s.reg x).toNat - 1) ∧
    ((∀ x, decode s.fetchWord ≠ .ok (.ldSTVx x)) → t.ST.toNat = s.ST.toNat - 1)

/-- `ST` is observable by no instruction (R27, R34): cycles from states that differ in `ST` alone end in states that
differ in `ST` at most. -/
def Obligations.SoundTimerIsObservedByNothing : Prop :=
  ∀ (s t : State) (v : Byte), step s = .next t → ∃ u, step { s with ST := v } = .next u ∧ u = { t with ST := u.ST }

/-- The report of a cycle (R95, R170 to R174): one error at most, with the word and its address, or none; a handler that
raises has changed nothing; and the report of the cycle before is read by nothing. That the report stands beside a next
state, with the word and the address, is the spec's decision D6 (D8 for the stack errors), and that the model holds it in
the field `report`, which R95 says is not state, is the model's choice (log entry 4). -/
def Obligations.ReportIsTheOneErrorOfTheCycle : Prop :=
  (∀ s t : State, step s = .next t →
    ((∃ r, decode s.fetchWord = .error r) → t.report = some (.decodeError s.fetchWord s.pc)) ∧
    ((∃ nnn, decode s.fetchWord = .ok (.call nnn)) → s.sp = 16 → t.report = some (.stackOverflow s.fetchWord s.pc)) ∧
    (decode s.fetchWord = .ok .ret → s.sp = 0 → t.report = some (.stackUnderflow s.fetchWord s.pc)) ∧
    ((∀ r, decode s.fetchWord ≠ .error r) → (s.sp = 16 → ∀ nnn, decode s.fetchWord ≠ .ok (.call nnn)) →
      (s.sp = 0 → decode s.fetchWord ≠ .ok .ret) → t.report = none) ∧
    (t.report ≠ none →
      t = { s.fetched with DT := ticked s.DT, ST := ticked s.ST, report := t.report })) ∧
  (∀ (s : State) (r : Option Report), step { s with report := r } = step s)

/-- No cycle writes the key flags but for the host's own next pattern, which is consumed (R30, R195). The list of patterns
to come is the model's own (log entry 2). -/
def Obligations.CycleTakesTheHostsKeypad : Prop :=
  ∀ s t : State, step s = .next t →
    t.keypad = s.keypadInputs.headD s.keypad ∧ t.keypadInputs = s.keypadInputs.tail

/-! ### Which instruction may write what -/

/-- No handler but those R21 names writes `pc`. -/
def Obligations.OnlyControlInstructionsWritePc : Prop :=
  ∀ (i : Instr) (s t : State), i.writesPc = false → exec i s = .next t → t.pc = s.pc

/-- No handler but BCD and the block store changes a byte of memory (R59). -/
def Obligations.OnlyStoresChangeMemory : Prop :=
  ∀ (i : Instr) (s t : State), i.writesMem = false → exec i s = .next t →
    t.mem = s.mem ∧ ∀ a, t.memRead a = s.memRead a

/-- Only CALL writes `stack`, only CALL and RET write `sp` (R24, R25). -/
def Obligations.OnlyCallAndRetMoveTheStack : Prop :=
  ∀ (i : Instr) (s t : State), exec i s = .next t →
    ((∀ nnn, i ≠ .call nnn) → t.stack = s.stack) ∧ ((∀ nnn, i ≠ .call nnn) → i ≠ .ret → t.sp = s.sp)

/-- Only CLS and DRW change the framebuffer (R31). -/
def Obligations.OnlyClsAndDrwChangeTheFramebuffer : Prop :=
  ∀ (i : Instr) (s t : State), i.writesVideo = false → exec i s = .next t → t.video = s.video

/-- Only the instructions R26 names change `I`, and the block transfers only under their toggle; that LD B and DRW do not
is the spec's decision D28 (log entry 14). -/
def Obligations.IndexHasOnlyItsWriters : Prop :=
  ∀ (i : Instr) (s t : State), exec i s = .next t →
    (i.writesIndex = false → t.I = s.I) ∧
    (∀ x, i = .ldMemVx x ∨ i = .ldVxMem x → s.quirks.loadStoreIncI = false → t.I = s.I)

/-- No register changes but an instruction's destinations and VF of the six instructions R23 names; those leave VF 0 or
1, also where VF is the destination (R23, R100, R101). That exactly these six write VF is the spec's decision D10 (log entry
11), the write order its decision D9 (log entry 10). -/
def Obligations.RegistersHaveOnlyTheirWriters : Prop :=
  ∀ (i : Instr) (s t : State), exec i s = .next t →
    (∀ y, y ∉ i.destinations → (y = 0xF → i.writesFlag = false) → t.reg y = s.reg y) ∧
    (i.writesFlag = true → t.reg 0xF = 0 ∨ t.reg 0xF = 1)

/-- No handler writes the latch, the keypad, the toggles or the host's plan; the timers have one writer each, and only
RND consumes a random byte, one each time (R28, R30, R36, R158). The plan and the count of random bytes are the model's
own fields (log entries 2 and 1). -/
def Obligations.HandlersLeaveTheirInputs : Prop :=
  ∀ (i : Instr) (s t : State), exec i s = .next t →
    t.opcode = s.opcode ∧ t.keypad = s.keypad ∧ t.keypadInputs = s.keypadInputs ∧ t.quirks = s.quirks ∧
    ((∀ x, i ≠ .ldDTVx x) → t.DT = s.DT) ∧ ((∀ x, i ≠ .ldSTVx x) → t.ST = s.ST) ∧
    ((∃ x kk, i = .rnd x kk) → t.rndCount = s.rndCount + 1) ∧ ((∀ x kk, i ≠ .rnd x kk) → t.rndCount = s.rndCount)

/-- The toggles change only what the four affected handlers do (R83). -/
def Obligations.QuirksReachOnlyFourHandlers : Prop :=
  ∀ (i : Instr) (s t : State) (q : Quirks), i.readsQuirks = false → exec i s = .next t →
    exec i { s with quirks := q } = .next { t with quirks := q }

/-- The keypad reaches only SKP, SKNP and the key wait (R30). -/
def Obligations.KeypadReachesOnlyKeyInstructions : Prop :=
  ∀ (i : Instr) (s t : State) (k : Keypad), i.readsKeypad = false → exec i s = .next t →
    exec i { s with keypad := k } = .next { t with keypad := k }

/-! ### Register load, arithmetic, logic, shifts (41_alu.md) -/

/-- LD Vx, byte: `6xkk`, the immediate into Vx and nothing else, VF too when it is named (R102). -/
def Obligations.LoadByteWritesTheImmediate : Prop :=
  ∀ (x : Reg) (kk : Byte) (s : State),
    decode (BitVec.ofNat 16 (0x6000 + 256 * x.val + kk.toNat)) = .ok (.ldByte x kk) ∧
    ∃ t, exec (.ldByte x kk) s = .next t ∧ t.reg x = kk ∧ (∀ y, y ≠ x → t.reg y = s.reg y) ∧
      t = { s with V := t.V } ∧ ∀ a, t.memRead a = s.memRead a

/-- ADD Vx, byte: modulo 256, the carry discarded, VF not written (R103; D10, log entry 11); its key 0x7, in the decode
clause, and the instruction itself are the spec's general knowledge (D1, log entry 5). -/
def Obligations.AddByteWrapsAndLeavesTheFlag : Prop :=
  ∀ (x : Reg) (kk : Byte) (s : State),
    decode (BitVec.ofNat 16 (0x7000 + 256 * x.val + kk.toNat)) = .ok (.addByte x kk) ∧
    ∃ t, exec (.addByte x kk) s = .next t ∧ (t.reg x).toNat = ((s.reg x).toNat + kk.toNat) % 256 ∧
      (∀ y, y ≠ x → t.reg y = s.reg y) ∧ t = { s with V := t.V } ∧ ∀ a, t.memRead a = s.memRead a

/-- LD Vx, Vy; OR; AND; XOR: the result bit by bit into Vx, VF neither written nor reset (R104, R105, R111, R112; D10,
log entry 11; LD Vx, Vy is the spec's general knowledge, log entry 5). -/
def Obligations.CopyAndLogicWriteOnlyTheDestination : Prop :=
  ∀ (x y : Reg) (s : State),
    (∃ t, exec (.ldReg x y) s = .next t ∧ t.reg x = s.reg y ∧
      (∀ z, z ≠ x → t.reg z = s.reg z) ∧ t = { s with V := t.V } ∧ ∀ a, t.memRead a = s.memRead a) ∧
    (∃ t, exec (.orReg x y) s = .next t ∧
      (∀ j, (t.reg x).getLsbD j = ((s.reg x).getLsbD j || (s.reg y).getLsbD j)) ∧
      (∀ z, z ≠ x → t.reg z = s.reg z) ∧ t = { s with V := t.V } ∧ ∀ a, t.memRead a = s.memRead a) ∧
    (∃ t, exec (.andReg x y) s = .next t ∧
      (∀ j, (t.reg x).getLsbD j = ((s.reg x).getLsbD j && (s.reg y).getLsbD j)) ∧
      (∀ z, z ≠ x → t.reg z = s.reg z) ∧ t = { s with V := t.V } ∧ ∀ a, t.memRead a = s.memRead a) ∧
    (∃ t, exec (.xorReg x y) s = .next t ∧
      (∀ j, (t.reg x).getLsbD j = ((s.reg x).getLsbD j ^^ (s.reg y).getLsbD j)) ∧
      (∀ z, z ≠ x → t.reg z = s.reg z) ∧ t = { s with V := t.V } ∧ ∀ a, t.memRead a = s.memRead a)

/-- ADD Vx, Vy: the sum modulo 256 into Vx and the carry out of bit 7 into VF; with x = F the carry is what remains
(R106; D9, log entry 10). -/
def Obligations.AddWritesSumAndCarry : Prop :=
  ∀ (x y : Reg) (s : State), ∃ t, exec (.addReg x y) s = .next t ∧
    (x ≠ 0xF → (t.reg x).toNat = ((s.reg x).toNat + (s.reg y).toNat) % 256) ∧
    (t.reg 0xF).toNat = (if (s.reg x).toNat + (s.reg y).toNat > 255 then 1 else 0) ∧
    (∀ z, z ≠ x → z ≠ 0xF → t.reg z = s.reg z) ∧ t = { s with V := t.V } ∧ ∀ a, t.memRead a = s.memRead a

/-- SUB and SUBN: the difference modulo 256 into Vx and the no-borrow flag into VF; with x = F the flag is what remains
(R107, R109; D9, log entry 10; that SUBN is the reversed subtraction is the spec's general knowledge, log entry 11). -/
def Obligations.SubtractionsWriteDifferenceAndNoBorrow : Prop :=
  ∀ (x y : Reg) (s : State),
    (∃ t, exec (.subReg x y) s = .next t ∧
      (x ≠ 0xF → (t.reg x).toNat = ((s.reg x).toNat + 256 - (s.reg y).toNat) % 256) ∧
      (t.reg 0xF).toNat = (if (s.reg x).toNat ≥ (s.reg y).toNat then 1 else 0) ∧
      (∀ z, z ≠ x → z ≠ 0xF → t.reg z = s.reg z) ∧ t = { s with V := t.V } ∧ ∀ a, t.memRead a = s.memRead a) ∧
    (∃ t, exec (.subn x y) s = .next t ∧
      (x ≠ 0xF → (t.reg x).toNat = ((s.reg y).toNat + 256 - (s.reg x).toNat) % 256) ∧
      (t.reg 0xF).toNat = (if (s.reg y).toNat ≥ (s.reg x).toNat then 1 else 0) ∧
      (∀ z, z ≠ x → z ≠ 0xF → t.reg z = s.reg z) ∧ t = { s with V := t.V } ∧ ∀ a, t.memRead a = s.memRead a)

/-- SHR and SHL under both values of the toggle: by one position, a 0 enters, VF is the bit shifted out of the source
(R108, R110; x = F: D9, log entry 10). -/
def Obligations.ShiftsMoveOneBitIntoTheFlag : Prop :=
  ∀ (x y : Reg) (s : State) (source : Nat),
    source = (if s.quirks.shiftUsesVy then s.reg y else s.reg x).toNat →
    (∃ t, exec (.shr x y) s = .next t ∧ (x ≠ 0xF → (t.reg x).toNat = source / 2) ∧
      (t.reg 0xF).toNat = source % 2 ∧
      (∀ z, z ≠ x → z ≠ 0xF → t.reg z = s.reg z) ∧ t = { s with V := t.V } ∧ ∀ a, t.memRead a = s.memRead a) ∧
    (∃ t, exec (.shl x y) s = .next t ∧ (x ≠ 0xF → (t.reg x).toNat = 2 * source % 256) ∧
      (t.reg 0xF).toNat = source / 128 ∧
      (∀ z, z ≠ x → z ≠ 0xF → t.reg z = s.reg z) ∧ t = { s with V := t.V } ∧ ∀ a, t.memRead a = s.memRead a)

/-! ### Control transfer (42_control_flow.md) -/

/-- SYS: every family-0x0 word whose low four bits are neither 0x0 nor 0xE; its handler changes nothing, the cycle
around it still latches, advances and ticks (R120). That these words are a no-op and no decode error is the spec's choice
(D3, C1, log entry 21); the keys 0x0 and 0xE they leave to CLS and RET are its general knowledge (D1, log entry 5). -/
def Obligations.SysIsANoOp : Prop :=
  (∀ nnn : BitVec 12, nnn.toNat % 16 ≠ 0x0 → nnn.toNat % 16 ≠ 0xE →
    decode (BitVec.ofNat 16 nnn.toNat) = .ok (.sys nnn)) ∧
  (∀ (nnn : BitVec 12) (s : State), exec (.sys nnn) s = .next s) ∧
  (∀ (nnn : BitVec 12) (s : State), decode s.fetchWord = .ok (.sys nnn) →
    step s = .next { s.fetched with DT := ticked s.DT, ST := ticked s.ST })

/-- JP addr: `1nnn`, `pc` is the zero-extended target and nothing else changes; a jump to its own address leaves `pc`
where it was at the end of the cycle and is fetched again, so it never advances (R121). -/
def Obligations.JumpLoadsTheTarget : Prop :=
  (∀ nnn : BitVec 12, decode (BitVec.ofNat 16 (0x1000 + nnn.toNat)) = .ok (.jp nnn)) ∧
  (∀ (nnn : BitVec 12) (s : State), ∃ t, exec (.jp nnn) s = .next t ∧ t.pc.toNat = nnn.toNat ∧
    t = { s with pc := t.pc } ∧ ∀ a, t.memRead a = s.memRead a) ∧
  (∀ s : State, s.pc.toNat < 4096 → s.fetchWord.toNat = 0x1000 + s.pc.toNat →
    ∃ t, step s = .next t ∧ t.pc = s.pc ∧ t.fetchWord = s.fetchWord)

/-- JP V0, addr: the sum of the address and V0, kept at 16 bits (R128; D25, log entry 12; the instruction
is the spec's general knowledge, log entry 5). -/
def Obligations.JumpV0AddsRegisterZero : Prop :=
  ∀ (nnn : BitVec 12) (s : State), ∃ t, exec (.jpV0 nnn) s = .next t ∧
    t.pc.toNat = nnn.toNat + (s.reg 0).toNat ∧ t = { s with pc := t.pc } ∧ ∀ a, t.memRead a = s.memRead a

/-- CALL below 16 nested calls: the advanced `pc` into `stack[sp]`, `sp` up by one, `pc` at the target (R122). -/
def Obligations.CallPushesTheReturnAddress : Prop :=
  ∀ (nnn : BitVec 12) (s : State) (k : Fin 16), s.sp.toNat = k.val →
    ∃ t, exec (.call nnn) s = .next t ∧ t.stack[k] = s.pc ∧ (∀ j : Fin 16, j ≠ k → t.stack[j] = s.stack[j]) ∧
      t.sp.toNat = k.val + 1 ∧ t.pc.toNat = nnn.toNat ∧
      t = { s with stack := t.stack, sp := t.sp, pc := t.pc } ∧ ∀ a, t.memRead a = s.memRead a

/-- RET with a return address held: `sp` down by one, `pc` from that entry, the entry keeps its value (R123; D29). -/
def Obligations.ReturnPopsIntoPc : Prop :=
  ∀ (s : State) (k : Fin 16), s.sp.toNat = k.val + 1 →
    ∃ t, exec .ret s = .next t ∧ t.sp.toNat = k.val ∧ t.pc = s.stack[k] ∧
      t = { s with sp := t.sp, pc := t.pc } ∧ ∀ a, t.memRead a = s.memRead a

/-- CALL at `sp = 16` and RET at `sp = 0` change nothing and report, with the latched word and the instruction's own
address (R173, R174, R176). The report beside a next state is the spec's decision D6 and D8 (log entry 4). -/
def Obligations.StackErrorsChangeNothingAndReport : Prop :=
  ∀ s : State,
    (∀ nnn, s.sp = 16 → exec (.call nnn) s = .next { s with report := some (.stackOverflow s.opcode (s.pc - 2)) }) ∧
    (s.sp = 0 → exec .ret s = .next { s with report := some (.stackUnderflow s.opcode (s.pc - 2)) })

/-- Outside the legal values of `sp` (R25), which no run reaches, CALL and RET stop by name: the model's own choice, log
entry 13. -/
def Obligations.StackInstructionsStopOutsideLegalSp : Prop :=
  ∀ s : State, 16 < s.sp.toNat →
    (∀ nnn, exec (.call nnn) s = .fault .stackPointerOutOfRange) ∧ exec .ret s = .fault .stackPointerOutOfRange

/-- A call and the return that answers it: whatever ran between kept the stack, `pc` is back at the instruction after the
call and `sp` where it was (R122, R123). -/
def Obligations.ReturnAnswersCall : Prop :=
  ∀ (nnn : BitVec 12) (s u : State), s.sp.toNat < 16 →
    ∃ t, exec (.call nnn) s = .next t ∧
      (u.stack = t.stack → u.sp = t.sp → ∃ v, exec .ret u = .next v ∧ v.pc = s.pc ∧ v.sp = s.sp)

/-- The four register skips, every word of their families: `pc` advances by an additional 2 when the condition holds,
and nothing else changes (R124 to R127). The keys are the spec's general knowledge (D1, log entry 5), that families 0x5 and
0x9 ignore their low four bits is its decision D2 (log entry 15). -/
def Obligations.RegisterSkipsAdvancePc : Prop :=
  (∀ (x : Reg) (kk : Byte), decode (BitVec.ofNat 16 (0x3000 + 256 * x.val + kk.toNat)) = .ok (.seByte x kk) ∧
    decode (BitVec.ofNat 16 (0x4000 + 256 * x.val + kk.toNat)) = .ok (.sneByte x kk)) ∧
  (∀ x y k : Fin 16, decode (BitVec.ofNat 16 (0x5000 + 256 * x.val + 16 * y.val + k.val)) = .ok (.seReg x y) ∧
    decode (BitVec.ofNat 16 (0x9000 + 256 * x.val + 16 * y.val + k.val)) = .ok (.sneReg x y)) ∧
  (∀ (x : Reg) (kk : Byte) (s : State),
    exec (.seByte x kk) s = .next { s with pc := if s.reg x = kk then s.pc + 2 else s.pc } ∧
    exec (.sneByte x kk) s = .next { s with pc := if s.reg x = kk then s.pc else s.pc + 2 }) ∧
  (∀ (x y : Reg) (s : State),
    exec (.seReg x y) s = .next { s with pc := if s.reg x = s.reg y then s.pc + 2 else s.pc } ∧
    exec (.sneReg x y) s = .next { s with pc := if s.reg x = s.reg y then s.pc else s.pc + 2 })

/-! ### Index register and memory (43_index_memory.md) -/

/-- LD I, addr; ADD I, Vx; LD F, Vx: the new `I`, and nothing else (R140 to R142; D10 and D11, log entries 11 and 8;
the three instructions are the spec's general knowledge, log entry 5). -/
def Obligations.IndexInstructionsWriteOnlyI : Prop :=
  ∀ (nnn : BitVec 12) (x : Reg) (s : State),
    (∃ t, exec (.ldI nnn) s = .next t ∧ t.I.toNat = nnn.toNat ∧
      t = { s with I := t.I } ∧ ∀ a, t.memRead a = s.memRead a) ∧
    (∃ t, exec (.addIVx x) s = .next t ∧ t.I.toNat = (s.I.toNat + (s.reg x).toNat) % 65536 ∧
      t = { s with I := t.I } ∧ ∀ a, t.memRead a = s.memRead a) ∧
    (∃ t, exec (.ldFVx x) s = .next t ∧ t.I.toNat = 0x050 + 5 * ((s.reg x).toNat % 16) ∧
      t = { s with I := t.I } ∧ ∀ a, t.memRead a = s.memRead a)

/-- LD B, Vx: hundreds, tens and ones at `I`, `I + 1`, `I + 2`, each address modulo 4096 on its own; every other byte and
every register as before (R143; D4, log entry 7). -/
def Obligations.BcdStoresThreeDigits : Prop :=
  ∀ (x : Reg) (s : State), Memory.wf s.mem = true →
    ∃ t, exec (.ldBVx x) s = .next t ∧
      (t.memRead (s.dataAddr 0)).toNat = (s.reg x).toNat / 100 ∧
      (t.memRead (s.dataAddr 1)).toNat = (s.reg x).toNat / 10 % 10 ∧
      (t.memRead (s.dataAddr 2)).toNat = (s.reg x).toNat % 10 ∧
      (∀ a, (∀ i, i < 3 → wrapAddr a ≠ wrapAddr (s.dataAddr i)) → t.memRead a = s.memRead a) ∧
      t = { s with mem := t.mem }

/-- LD [I], Vx: V0 to Vx to consecutive bytes from `I`, then `I` up by x + 1 under the toggle; every other byte and every
register as before (R144, R145; D4 and D14, log entries 7 and 14). -/
def Obligations.BlockStoreWritesRegisters : Prop :=
  ∀ (x : Reg) (s : State), Memory.wf s.mem = true →
    ∃ t, exec (.ldMemVx x) s = .next t ∧
      (∀ i : Reg, i ≤ x → t.memRead (s.dataAddr i.val) = s.reg i) ∧
      (∀ a, (∀ i, i ≤ x.val → wrapAddr a ≠ wrapAddr (s.dataAddr i)) → t.memRead a = s.memRead a) ∧
      t.I.toNat = (if s.quirks.loadStoreIncI then (s.I.toNat + x.val + 1) % 65536 else s.I.toNat) ∧
      t = { s with mem := t.mem, I := t.I }

/-- LD Vx, [I]: V0 to Vx from consecutive bytes from `I`, the registers above Vx and memory as before, `I` up by x + 1
under the toggle (R144, R146; D4 and D14, log entries 7 and 14). -/
def Obligations.BlockLoadReadsRegisters : Prop :=
  ∀ (x : Reg) (s : State),
    ∃ t, exec (.ldVxMem x) s = .next t ∧
      (∀ i : Reg, i ≤ x → t.reg i = s.memRead (s.dataAddr i.val)) ∧
      (∀ i : Reg, x < i → t.reg i = s.reg i) ∧
      t.I.toNat = (if s.quirks.loadStoreIncI then (s.I.toNat + x.val + 1) % 65536 else s.I.toNat) ∧
      t = { s with V := t.V, I := t.I } ∧ ∀ a, t.memRead a = s.memRead a

/-- The round trip of R146: with the advance off, storing V0 to Vx and then loading them back, whatever happened to the
registers between, reproduces them. -/
def Obligations.BlockStoreThenLoadRestoresRegisters : Prop :=
  ∀ (x : Reg) (s : State) (V' : Vector Byte 16), Memory.wf s.mem = true → s.quirks.loadStoreIncI = false →
    ∃ t u, exec (.ldMemVx x) s = .next t ∧ exec (.ldVxMem x) { t with V := V' } = .next u ∧
      ∀ i : Reg, i ≤ x → u.reg i = s.reg i

/-- Every location is plain storage: a byte written is the byte read, at every address modulo 4096, and every other
byte is as before (R53, R59; the wrap is D4, log entry 7). -/
def Obligations.ReadAfterWriteReturnsTheByte : Prop :=
  ∀ (s : State) (a b : Nat) (v : Byte), Memory.wf s.mem = true →
    (s.memWrite a v).memRead b = if b % 4096 = a % 4096 then v else s.memRead b

/-- A store is seen by the next fetch (R61): a block store over the bytes at `pc` changes the word fetched there. -/
def Obligations.StoreIsSeenByTheNextFetch : Prop :=
  ∀ (x : Reg) (s : State), Memory.wf s.mem = true → 1 ≤ x.val → s.I.toNat % 4096 = s.pc.toNat % 4096 →
    ∃ t, exec (.ldMemVx x) s = .next t ∧ t.fetchWord.toNat = 256 * (s.reg 0).toNat + (s.reg 1).toNat

/-! ### Framebuffer, keypad, timers, random byte (44_io_timers.md) -/

/-- CLS clears every pixel and changes nothing else (R151; that it clears the whole screen is the spec's general
knowledge, log entry 16). -/
def Obligations.ClsClearsEveryPixel : Prop :=
  ∀ s : State, ∃ t, exec .cls s = .next t ∧ (∀ px py, pixel t.video px py = false) ∧
    t = { s with video := t.video } ∧ ∀ a, t.memRead a = s.memRead a

/-- DRW: each pixel under a 1 bit of the sprite is flipped and no other, VF is 1 when one of them was set and else 0, and
nothing else changes; the origin wraps, pixels past an edge are clipped (R152; D13 and the bit order, log entry 16). -/
def Obligations.DrawFlipsTheSpritesPixels : Prop :=
  ∀ (x y : Reg) (n : Fin 16) (s : State), ∃ t, exec (.drw x y n) s = .next t ∧
    (∀ px py, pixel t.video px py = (pixel s.video px py ^^ s.spriteBit x y n px py)) ∧
    (t.reg 0xF = 1 ↔ ∃ px py, s.spriteBit x y n px py = true ∧ pixel s.video px py = true) ∧
    (t.reg 0xF = 0 ↔ ∀ px py, s.spriteBit x y n px py = true → pixel s.video px py = false) ∧
    (∀ z, z ≠ 0xF → t.reg z = s.reg z) ∧
    t = { s with V := t.V, video := t.video } ∧ ∀ a, t.memRead a = s.memRead a

/-- Drawing the same sprite at the same place twice gives the framebuffer back, and the second VF is 1 exactly when the
first draw set a pixel (R152 h; the clipping is D13 and the bit order general knowledge, log entry 16). -/
def Obligations.DrawingTwiceRestoresTheScreen : Prop :=
  ∀ (x y : Reg) (n : Fin 16) (s u : State), ∃ t, exec (.drw x y n) s = .next t ∧
    (u.video = t.video → u.mem = s.mem → u.I = s.I →
      (u.reg x).toNat % 64 = (s.reg x).toNat % 64 → (u.reg y).toNat % 32 = (s.reg y).toNat % 32 →
      ∃ v, exec (.drw x y n) u = .next v ∧ v.video = s.video ∧
        (v.reg 0xF = 1 ↔ ∃ px py, s.spriteBit x y n px py = true ∧ pixel s.video px py = false))

/-- SKP and SKNP: the key of the register's low four bits decides the skip, and nothing else changes (R150, R153, R154;
D11, log entry 8). -/
def Obligations.KeySkipsFollowTheSelectedKey : Prop :=
  ∀ (x : Reg) (s : State) (k : Fin 16), (s.reg x).toNat % 16 = k.val →
    exec (.skp x) s = .next { s with pc := if s.key k then s.pc + 2 else s.pc } ∧
    exec (.sknp x) s = .next { s with pc := if s.key k then s.pc else s.pc + 2 }

/-- The key wait with a key pressed: the least pressed key's number into Vx and nothing else (R155; D12, log entry 9). -/
def Obligations.KeyWaitTakesTheLeastKey : Prop :=
  ∀ (x : Reg) (s : State) (k : Fin 16), s.key k = true → (∀ j, j < k → s.key j = false) →
    ∃ t, exec (.ldVxK x) s = .next t ∧ (t.reg x).toNat = k.val ∧ (∀ y, y ≠ x → t.reg y = s.reg y) ∧
      t = { s with V := t.V } ∧ ∀ a, t.memRead a = s.memRead a

/-- The key wait with no key pressed: `pc` back by 2 and nothing else, so the whole cycle leaves `pc` where it was while
the timers tick (R155). -/
def Obligations.KeyWaitRewindsWithoutAKey : Prop :=
  (∀ (x : Reg) (s : State), (∀ k, s.key k = false) → exec (.ldVxK x) s = .next { s with pc := s.pc - 2 }) ∧
  (∀ (x : Reg) (s : State), decode s.fetchWord = .ok (.ldVxK x) → (∀ k, s.fetched.key k = false) →
    step s = .next { s.fetched with pc := s.pc, DT := ticked s.DT, ST := ticked s.ST })

/-- LD Vx, DT; LD DT, Vx; LD ST, Vx: the value moved, and nothing else (R156, R157, R159; the three
instructions are the spec's general knowledge, log entry 5). -/
def Obligations.TimerMovesCopyTheValue : Prop :=
  ∀ (x : Reg) (s : State),
    (∃ t, exec (.ldVxDT x) s = .next t ∧ t.reg x = s.DT ∧ (∀ y, y ≠ x → t.reg y = s.reg y) ∧
      t = { s with V := t.V } ∧ ∀ a, t.memRead a = s.memRead a) ∧
    (∃ t, exec (.ldDTVx x) s = .next t ∧ t.DT = s.reg x ∧ t = { s with DT := t.DT } ∧
      ∀ a, t.memRead a = s.memRead a) ∧
    (∃ t, exec (.ldSTVx x) s = .next t ∧ t.ST = s.reg x ∧ t = { s with ST := t.ST } ∧
      ∀ a, t.memRead a = s.memRead a)

/-- RND: the free random byte masked by the immediate, so a bit that is 0 in the immediate is 0 in Vx; one random byte is
consumed (R158; the byte is a free value, log entry 1). -/
def Obligations.RandomByteIsMasked : Prop :=
  ∀ (x : Reg) (kk : Byte) (s : State), ∃ t, exec (.rnd x kk) s = .next t ∧
    (∀ j, (t.reg x).getLsbD j = ((Config.rnd s.rndCount).getLsbD j && kk.getLsbD j)) ∧
    (∀ y, y ≠ x → t.reg y = s.reg y) ∧ t.rndCount = s.rndCount + 1 ∧
    t = { s with V := t.V, rndCount := t.rndCount } ∧ ∀ a, t.memRead a = s.memRead a

/-! ### The host's ROM load (70_reset_and_hazards.md) -/

/-- ROM load: the bytes that fit from 0x200 upward verbatim, every other byte and every other element as before, and
`RomTooLarge` with the length offered exactly when they do not all fit (R193; D17). -/
def Obligations.RomLoadWritesWhatFits : Prop :=
  ∀ (s : State) (rom : List Byte), Memory.wf s.mem = true →
    (∀ i, i < rom.length → i < 0xE00 → rom[i]? = some ((s.loadRom rom).1.memRead (0x200 + i))) ∧
    (∀ a, a < 4096 → (a < 0x200 ∨ 0x200 + rom.length ≤ a) → (s.loadRom rom).1.memRead a = s.memRead a) ∧
    (s.loadRom rom).1 = { s with mem := (s.loadRom rom).1.mem } ∧ Memory.wf (s.loadRom rom).1.mem = true ∧
    (s.loadRom rom).2 = if rom.length > 0xE00 then some (.romTooLarge rom.length) else none

/-- The launch of a run: with a ROM that fits it gives the state after `init` with the toggles set and the ROM at 0x200, a
sound state whose first cycle fetches the ROM's first two bytes; with a longer one there is no launch state, only
`RomTooLarge` with the length offered (R192, R193; D17, log entry 20). -/
def Obligations.LaunchIsRefusedWhenTheRomDoesNotFit : Prop :=
  ∀ (q : Quirks) (rom : List Byte),
    (rom.length ≤ 0xE00 → ∃ s, State.launch q rom = .ok s ∧ s.Inv ∧
      (∀ i, i < rom.length → rom[i]? = some (s.memRead (0x200 + i))) ∧
      (∀ a, a < 4096 → (a < 0x200 ∨ 0x200 + rom.length ≤ a) → s.memRead a = State.reset.memRead a) ∧
      s = { State.reset with mem := s.mem, quirks := q } ∧
      ∀ hi lo rest, rom = hi :: lo :: rest → s.fetchWord.toNat = 256 * hi.toNat + lo.toNat) ∧
    (0xE00 < rom.length → State.launch q rom = .error (.romTooLarge rom.length))
end

