-- ==== Sys2Proof/Laws/State.lean ====
section
/-! SUPPORT. One lemma for each field and each update of the state, so that no later proof unfolds a record update; and
the register file's two laws. -/

namespace Sys2Proof.Machine

/-! ### `setReg` -/

@[simp] theorem State.setReg_mem (s : State) (x : Reg) (b : Byte) : (s.setReg x b).mem = s.mem := rfl
@[simp] theorem State.setReg_V (s : State) (x : Reg) (b : Byte) : (s.setReg x b).V = s.V.set x.val b := rfl
@[simp] theorem State.setReg_I (s : State) (x : Reg) (b : Byte) : (s.setReg x b).I = s.I := rfl
@[simp] theorem State.setReg_pc (s : State) (x : Reg) (b : Byte) : (s.setReg x b).pc = s.pc := rfl
@[simp] theorem State.setReg_stack (s : State) (x : Reg) (b : Byte) : (s.setReg x b).stack = s.stack := rfl
@[simp] theorem State.setReg_sp (s : State) (x : Reg) (b : Byte) : (s.setReg x b).sp = s.sp := rfl
@[simp] theorem State.setReg_DT (s : State) (x : Reg) (b : Byte) : (s.setReg x b).DT = s.DT := rfl
@[simp] theorem State.setReg_ST (s : State) (x : Reg) (b : Byte) : (s.setReg x b).ST = s.ST := rfl
@[simp] theorem State.setReg_video (s : State) (x : Reg) (b : Byte) : (s.setReg x b).video = s.video := rfl
@[simp] theorem State.setReg_opcode (s : State) (x : Reg) (b : Byte) : (s.setReg x b).opcode = s.opcode := rfl
@[simp] theorem State.setReg_keypad (s : State) (x : Reg) (b : Byte) : (s.setReg x b).keypad = s.keypad := rfl
@[simp] theorem State.setReg_keypadInputs (s : State) (x : Reg) (b : Byte) : (s.setReg x b).keypadInputs = s.keypadInputs := rfl
@[simp] theorem State.setReg_quirks (s : State) (x : Reg) (b : Byte) : (s.setReg x b).quirks = s.quirks := rfl
@[simp] theorem State.setReg_rndCount (s : State) (x : Reg) (b : Byte) : (s.setReg x b).rndCount = s.rndCount := rfl
@[simp] theorem State.setReg_report (s : State) (x : Reg) (b : Byte) : (s.setReg x b).report = s.report := rfl
@[simp] theorem State.setReg_memRead (s : State) (x : Reg) (b : Byte) (i : Nat) : (s.setReg x b).memRead i = s.memRead i := rfl
@[simp] theorem State.setReg_key (s : State) (x : Reg) (b : Byte) (j : Fin 16) : (s.setReg x b).key j = s.key j := rfl

/-! ### `setI` -/

@[simp] theorem State.setI_mem (s : State) (w : Word) : (s.setI w).mem = s.mem := rfl
@[simp] theorem State.setI_V (s : State) (w : Word) : (s.setI w).V = s.V := rfl
@[simp] theorem State.setI_I (s : State) (w : Word) : (s.setI w).I = w := rfl
@[simp] theorem State.setI_pc (s : State) (w : Word) : (s.setI w).pc = s.pc := rfl
@[simp] theorem State.setI_stack (s : State) (w : Word) : (s.setI w).stack = s.stack := rfl
@[simp] theorem State.setI_sp (s : State) (w : Word) : (s.setI w).sp = s.sp := rfl
@[simp] theorem State.setI_DT (s : State) (w : Word) : (s.setI w).DT = s.DT := rfl
@[simp] theorem State.setI_ST (s : State) (w : Word) : (s.setI w).ST = s.ST := rfl
@[simp] theorem State.setI_video (s : State) (w : Word) : (s.setI w).video = s.video := rfl
@[simp] theorem State.setI_opcode (s : State) (w : Word) : (s.setI w).opcode = s.opcode := rfl
@[simp] theorem State.setI_keypad (s : State) (w : Word) : (s.setI w).keypad = s.keypad := rfl
@[simp] theorem State.setI_keypadInputs (s : State) (w : Word) : (s.setI w).keypadInputs = s.keypadInputs := rfl
@[simp] theorem State.setI_quirks (s : State) (w : Word) : (s.setI w).quirks = s.quirks := rfl
@[simp] theorem State.setI_rndCount (s : State) (w : Word) : (s.setI w).rndCount = s.rndCount := rfl
@[simp] theorem State.setI_report (s : State) (w : Word) : (s.setI w).report = s.report := rfl
@[simp] theorem State.setI_reg (s : State) (w : Word) (y : Reg) : (s.setI w).reg y = s.reg y := rfl
@[simp] theorem State.setI_memRead (s : State) (w : Word) (i : Nat) : (s.setI w).memRead i = s.memRead i := rfl
@[simp] theorem State.setI_key (s : State) (w : Word) (j : Fin 16) : (s.setI w).key j = s.key j := rfl

/-! ### `setPc` -/

@[simp] theorem State.setPc_mem (s : State) (w : Word) : (s.setPc w).mem = s.mem := rfl
@[simp] theorem State.setPc_V (s : State) (w : Word) : (s.setPc w).V = s.V := rfl
@[simp] theorem State.setPc_I (s : State) (w : Word) : (s.setPc w).I = s.I := rfl
@[simp] theorem State.setPc_pc (s : State) (w : Word) : (s.setPc w).pc = w := rfl
@[simp] theorem State.setPc_stack (s : State) (w : Word) : (s.setPc w).stack = s.stack := rfl
@[simp] theorem State.setPc_sp (s : State) (w : Word) : (s.setPc w).sp = s.sp := rfl
@[simp] theorem State.setPc_DT (s : State) (w : Word) : (s.setPc w).DT = s.DT := rfl
@[simp] theorem State.setPc_ST (s : State) (w : Word) : (s.setPc w).ST = s.ST := rfl
@[simp] theorem State.setPc_video (s : State) (w : Word) : (s.setPc w).video = s.video := rfl
@[simp] theorem State.setPc_opcode (s : State) (w : Word) : (s.setPc w).opcode = s.opcode := rfl
@[simp] theorem State.setPc_keypad (s : State) (w : Word) : (s.setPc w).keypad = s.keypad := rfl
@[simp] theorem State.setPc_keypadInputs (s : State) (w : Word) : (s.setPc w).keypadInputs = s.keypadInputs := rfl
@[simp] theorem State.setPc_quirks (s : State) (w : Word) : (s.setPc w).quirks = s.quirks := rfl
@[simp] theorem State.setPc_rndCount (s : State) (w : Word) : (s.setPc w).rndCount = s.rndCount := rfl
@[simp] theorem State.setPc_report (s : State) (w : Word) : (s.setPc w).report = s.report := rfl
@[simp] theorem State.setPc_reg (s : State) (w : Word) (y : Reg) : (s.setPc w).reg y = s.reg y := rfl
@[simp] theorem State.setPc_memRead (s : State) (w : Word) (i : Nat) : (s.setPc w).memRead i = s.memRead i := rfl
@[simp] theorem State.setPc_key (s : State) (w : Word) (j : Fin 16) : (s.setPc w).key j = s.key j := rfl

/-! ### `setDT` -/

@[simp] theorem State.setDT_mem (s : State) (b : Byte) : (s.setDT b).mem = s.mem := rfl
@[simp] theorem State.setDT_V (s : State) (b : Byte) : (s.setDT b).V = s.V := rfl
@[simp] theorem State.setDT_I (s : State) (b : Byte) : (s.setDT b).I = s.I := rfl
@[simp] theorem State.setDT_pc (s : State) (b : Byte) : (s.setDT b).pc = s.pc := rfl
@[simp] theorem State.setDT_stack (s : State) (b : Byte) : (s.setDT b).stack = s.stack := rfl
@[simp] theorem State.setDT_sp (s : State) (b : Byte) : (s.setDT b).sp = s.sp := rfl
@[simp] theorem State.setDT_DT (s : State) (b : Byte) : (s.setDT b).DT = b := rfl
@[simp] theorem State.setDT_ST (s : State) (b : Byte) : (s.setDT b).ST = s.ST := rfl
@[simp] theorem State.setDT_video (s : State) (b : Byte) : (s.setDT b).video = s.video := rfl
@[simp] theorem State.setDT_opcode (s : State) (b : Byte) : (s.setDT b).opcode = s.opcode := rfl
@[simp] theorem State.setDT_keypad (s : State) (b : Byte) : (s.setDT b).keypad = s.keypad := rfl
@[simp] theorem State.setDT_keypadInputs (s : State) (b : Byte) : (s.setDT b).keypadInputs = s.keypadInputs := rfl
@[simp] theorem State.setDT_quirks (s : State) (b : Byte) : (s.setDT b).quirks = s.quirks := rfl
@[simp] theorem State.setDT_rndCount (s : State) (b : Byte) : (s.setDT b).rndCount = s.rndCount := rfl
@[simp] theorem State.setDT_report (s : State) (b : Byte) : (s.setDT b).report = s.report := rfl
@[simp] theorem State.setDT_reg (s : State) (b : Byte) (y : Reg) : (s.setDT b).reg y = s.reg y := rfl
@[simp] theorem State.setDT_memRead (s : State) (b : Byte) (i : Nat) : (s.setDT b).memRead i = s.memRead i := rfl
@[simp] theorem State.setDT_key (s : State) (b : Byte) (j : Fin 16) : (s.setDT b).key j = s.key j := rfl

/-! ### `setST` -/

@[simp] theorem State.setST_mem (s : State) (b : Byte) : (s.setST b).mem = s.mem := rfl
@[simp] theorem State.setST_V (s : State) (b : Byte) : (s.setST b).V = s.V := rfl
@[simp] theorem State.setST_I (s : State) (b : Byte) : (s.setST b).I = s.I := rfl
@[simp] theorem State.setST_pc (s : State) (b : Byte) : (s.setST b).pc = s.pc := rfl
@[simp] theorem State.setST_stack (s : State) (b : Byte) : (s.setST b).stack = s.stack := rfl
@[simp] theorem State.setST_sp (s : State) (b : Byte) : (s.setST b).sp = s.sp := rfl
@[simp] theorem State.setST_DT (s : State) (b : Byte) : (s.setST b).DT = s.DT := rfl
@[simp] theorem State.setST_ST (s : State) (b : Byte) : (s.setST b).ST = b := rfl
@[simp] theorem State.setST_video (s : State) (b : Byte) : (s.setST b).video = s.video := rfl
@[simp] theorem State.setST_opcode (s : State) (b : Byte) : (s.setST b).opcode = s.opcode := rfl
@[simp] theorem State.setST_keypad (s : State) (b : Byte) : (s.setST b).keypad = s.keypad := rfl
@[simp] theorem State.setST_keypadInputs (s : State) (b : Byte) : (s.setST b).keypadInputs = s.keypadInputs := rfl
@[simp] theorem State.setST_quirks (s : State) (b : Byte) : (s.setST b).quirks = s.quirks := rfl
@[simp] theorem State.setST_rndCount (s : State) (b : Byte) : (s.setST b).rndCount = s.rndCount := rfl
@[simp] theorem State.setST_report (s : State) (b : Byte) : (s.setST b).report = s.report := rfl
@[simp] theorem State.setST_reg (s : State) (b : Byte) (y : Reg) : (s.setST b).reg y = s.reg y := rfl
@[simp] theorem State.setST_memRead (s : State) (b : Byte) (i : Nat) : (s.setST b).memRead i = s.memRead i := rfl
@[simp] theorem State.setST_key (s : State) (b : Byte) (j : Fin 16) : (s.setST b).key j = s.key j := rfl

/-! ### `setVideo` -/

@[simp] theorem State.setVideo_mem (s : State) (v : Video) : (s.setVideo v).mem = s.mem := rfl
@[simp] theorem State.setVideo_V (s : State) (v : Video) : (s.setVideo v).V = s.V := rfl
@[simp] theorem State.setVideo_I (s : State) (v : Video) : (s.setVideo v).I = s.I := rfl
@[simp] theorem State.setVideo_pc (s : State) (v : Video) : (s.setVideo v).pc = s.pc := rfl
@[simp] theorem State.setVideo_stack (s : State) (v : Video) : (s.setVideo v).stack = s.stack := rfl
@[simp] theorem State.setVideo_sp (s : State) (v : Video) : (s.setVideo v).sp = s.sp := rfl
@[simp] theorem State.setVideo_DT (s : State) (v : Video) : (s.setVideo v).DT = s.DT := rfl
@[simp] theorem State.setVideo_ST (s : State) (v : Video) : (s.setVideo v).ST = s.ST := rfl
@[simp] theorem State.setVideo_video (s : State) (v : Video) : (s.setVideo v).video = v := rfl
@[simp] theorem State.setVideo_opcode (s : State) (v : Video) : (s.setVideo v).opcode = s.opcode := rfl
@[simp] theorem State.setVideo_keypad (s : State) (v : Video) : (s.setVideo v).keypad = s.keypad := rfl
@[simp] theorem State.setVideo_keypadInputs (s : State) (v : Video) : (s.setVideo v).keypadInputs = s.keypadInputs := rfl
@[simp] theorem State.setVideo_quirks (s : State) (v : Video) : (s.setVideo v).quirks = s.quirks := rfl
@[simp] theorem State.setVideo_rndCount (s : State) (v : Video) : (s.setVideo v).rndCount = s.rndCount := rfl
@[simp] theorem State.setVideo_report (s : State) (v : Video) : (s.setVideo v).report = s.report := rfl
@[simp] theorem State.setVideo_reg (s : State) (v : Video) (y : Reg) : (s.setVideo v).reg y = s.reg y := rfl
@[simp] theorem State.setVideo_memRead (s : State) (v : Video) (i : Nat) : (s.setVideo v).memRead i = s.memRead i := rfl
@[simp] theorem State.setVideo_key (s : State) (v : Video) (j : Fin 16) : (s.setVideo v).key j = s.key j := rfl

/-! ### `setSp` -/

@[simp] theorem State.setSp_mem (s : State) (k : Byte) : (s.setSp k).mem = s.mem := rfl
@[simp] theorem State.setSp_V (s : State) (k : Byte) : (s.setSp k).V = s.V := rfl
@[simp] theorem State.setSp_I (s : State) (k : Byte) : (s.setSp k).I = s.I := rfl
@[simp] theorem State.setSp_pc (s : State) (k : Byte) : (s.setSp k).pc = s.pc := rfl
@[simp] theorem State.setSp_stack (s : State) (k : Byte) : (s.setSp k).stack = s.stack := rfl
@[simp] theorem State.setSp_sp (s : State) (k : Byte) : (s.setSp k).sp = k := rfl
@[simp] theorem State.setSp_DT (s : State) (k : Byte) : (s.setSp k).DT = s.DT := rfl
@[simp] theorem State.setSp_ST (s : State) (k : Byte) : (s.setSp k).ST = s.ST := rfl
@[simp] theorem State.setSp_video (s : State) (k : Byte) : (s.setSp k).video = s.video := rfl
@[simp] theorem State.setSp_opcode (s : State) (k : Byte) : (s.setSp k).opcode = s.opcode := rfl
@[simp] theorem State.setSp_keypad (s : State) (k : Byte) : (s.setSp k).keypad = s.keypad := rfl
@[simp] theorem State.setSp_keypadInputs (s : State) (k : Byte) : (s.setSp k).keypadInputs = s.keypadInputs := rfl
@[simp] theorem State.setSp_quirks (s : State) (k : Byte) : (s.setSp k).quirks = s.quirks := rfl
@[simp] theorem State.setSp_rndCount (s : State) (k : Byte) : (s.setSp k).rndCount = s.rndCount := rfl
@[simp] theorem State.setSp_report (s : State) (k : Byte) : (s.setSp k).report = s.report := rfl
@[simp] theorem State.setSp_reg (s : State) (k : Byte) (y : Reg) : (s.setSp k).reg y = s.reg y := rfl
@[simp] theorem State.setSp_memRead (s : State) (k : Byte) (i : Nat) : (s.setSp k).memRead i = s.memRead i := rfl
@[simp] theorem State.setSp_key (s : State) (k : Byte) (j : Fin 16) : (s.setSp k).key j = s.key j := rfl

/-! ### `setStack` -/

@[simp] theorem State.setStack_mem (s : State) (k : Fin 16) (w : Word) : (s.setStack k w).mem = s.mem := rfl
@[simp] theorem State.setStack_V (s : State) (k : Fin 16) (w : Word) : (s.setStack k w).V = s.V := rfl
@[simp] theorem State.setStack_I (s : State) (k : Fin 16) (w : Word) : (s.setStack k w).I = s.I := rfl
@[simp] theorem State.setStack_pc (s : State) (k : Fin 16) (w : Word) : (s.setStack k w).pc = s.pc := rfl
@[simp] theorem State.setStack_stack (s : State) (k : Fin 16) (w : Word) : (s.setStack k w).stack = s.stack.set k.val w := rfl
@[simp] theorem State.setStack_sp (s : State) (k : Fin 16) (w : Word) : (s.setStack k w).sp = s.sp := rfl
@[simp] theorem State.setStack_DT (s : State) (k : Fin 16) (w : Word) : (s.setStack k w).DT = s.DT := rfl
@[simp] theorem State.setStack_ST (s : State) (k : Fin 16) (w : Word) : (s.setStack k w).ST = s.ST := rfl
@[simp] theorem State.setStack_video (s : State) (k : Fin 16) (w : Word) : (s.setStack k w).video = s.video := rfl
@[simp] theorem State.setStack_opcode (s : State) (k : Fin 16) (w : Word) : (s.setStack k w).opcode = s.opcode := rfl
@[simp] theorem State.setStack_keypad (s : State) (k : Fin 16) (w : Word) : (s.setStack k w).keypad = s.keypad := rfl
@[simp] theorem State.setStack_keypadInputs (s : State) (k : Fin 16) (w : Word) : (s.setStack k w).keypadInputs = s.keypadInputs := rfl
@[simp] theorem State.setStack_quirks (s : State) (k : Fin 16) (w : Word) : (s.setStack k w).quirks = s.quirks := rfl
@[simp] theorem State.setStack_rndCount (s : State) (k : Fin 16) (w : Word) : (s.setStack k w).rndCount = s.rndCount := rfl
@[simp] theorem State.setStack_report (s : State) (k : Fin 16) (w : Word) : (s.setStack k w).report = s.report := rfl
@[simp] theorem State.setStack_reg (s : State) (k : Fin 16) (w : Word) (y : Reg) : (s.setStack k w).reg y = s.reg y := rfl
@[simp] theorem State.setStack_memRead (s : State) (k : Fin 16) (w : Word) (i : Nat) : (s.setStack k w).memRead i = s.memRead i := rfl
@[simp] theorem State.setStack_key (s : State) (k : Fin 16) (w : Word) (j : Fin 16) : (s.setStack k w).key j = s.key j := rfl

/-! ### `memWrite` -/

@[simp] theorem State.memWrite_mem (s : State) (a : Nat) (v : Byte) : (s.memWrite a v).mem = Memory.write s.mem (wrapAddr a) v := rfl
@[simp] theorem State.memWrite_V (s : State) (a : Nat) (v : Byte) : (s.memWrite a v).V = s.V := rfl
@[simp] theorem State.memWrite_I (s : State) (a : Nat) (v : Byte) : (s.memWrite a v).I = s.I := rfl
@[simp] theorem State.memWrite_pc (s : State) (a : Nat) (v : Byte) : (s.memWrite a v).pc = s.pc := rfl
@[simp] theorem State.memWrite_stack (s : State) (a : Nat) (v : Byte) : (s.memWrite a v).stack = s.stack := rfl
@[simp] theorem State.memWrite_sp (s : State) (a : Nat) (v : Byte) : (s.memWrite a v).sp = s.sp := rfl
@[simp] theorem State.memWrite_DT (s : State) (a : Nat) (v : Byte) : (s.memWrite a v).DT = s.DT := rfl
@[simp] theorem State.memWrite_ST (s : State) (a : Nat) (v : Byte) : (s.memWrite a v).ST = s.ST := rfl
@[simp] theorem State.memWrite_video (s : State) (a : Nat) (v : Byte) : (s.memWrite a v).video = s.video := rfl
@[simp] theorem State.memWrite_opcode (s : State) (a : Nat) (v : Byte) : (s.memWrite a v).opcode = s.opcode := rfl
@[simp] theorem State.memWrite_keypad (s : State) (a : Nat) (v : Byte) : (s.memWrite a v).keypad = s.keypad := rfl
@[simp] theorem State.memWrite_keypadInputs (s : State) (a : Nat) (v : Byte) : (s.memWrite a v).keypadInputs = s.keypadInputs := rfl
@[simp] theorem State.memWrite_quirks (s : State) (a : Nat) (v : Byte) : (s.memWrite a v).quirks = s.quirks := rfl
@[simp] theorem State.memWrite_rndCount (s : State) (a : Nat) (v : Byte) : (s.memWrite a v).rndCount = s.rndCount := rfl
@[simp] theorem State.memWrite_report (s : State) (a : Nat) (v : Byte) : (s.memWrite a v).report = s.report := rfl
@[simp] theorem State.memWrite_reg (s : State) (a : Nat) (v : Byte) (y : Reg) : (s.memWrite a v).reg y = s.reg y := rfl
@[simp] theorem State.memWrite_key (s : State) (a : Nat) (v : Byte) (j : Fin 16) : (s.memWrite a v).key j = s.key j := rfl

/-! ### `raiseError` -/

@[simp] theorem State.raiseError_mem (s : State) (e : Word → Word → Report) : (s.raiseError e).mem = s.mem := rfl
@[simp] theorem State.raiseError_V (s : State) (e : Word → Word → Report) : (s.raiseError e).V = s.V := rfl
@[simp] theorem State.raiseError_I (s : State) (e : Word → Word → Report) : (s.raiseError e).I = s.I := rfl
@[simp] theorem State.raiseError_pc (s : State) (e : Word → Word → Report) : (s.raiseError e).pc = s.pc := rfl
@[simp] theorem State.raiseError_stack (s : State) (e : Word → Word → Report) : (s.raiseError e).stack = s.stack := rfl
@[simp] theorem State.raiseError_sp (s : State) (e : Word → Word → Report) : (s.raiseError e).sp = s.sp := rfl
@[simp] theorem State.raiseError_DT (s : State) (e : Word → Word → Report) : (s.raiseError e).DT = s.DT := rfl
@[simp] theorem State.raiseError_ST (s : State) (e : Word → Word → Report) : (s.raiseError e).ST = s.ST := rfl
@[simp] theorem State.raiseError_video (s : State) (e : Word → Word → Report) : (s.raiseError e).video = s.video := rfl
@[simp] theorem State.raiseError_opcode (s : State) (e : Word → Word → Report) : (s.raiseError e).opcode = s.opcode := rfl
@[simp] theorem State.raiseError_keypad (s : State) (e : Word → Word → Report) : (s.raiseError e).keypad = s.keypad := rfl
@[simp] theorem State.raiseError_keypadInputs (s : State) (e : Word → Word → Report) : (s.raiseError e).keypadInputs = s.keypadInputs := rfl
@[simp] theorem State.raiseError_quirks (s : State) (e : Word → Word → Report) : (s.raiseError e).quirks = s.quirks := rfl
@[simp] theorem State.raiseError_rndCount (s : State) (e : Word → Word → Report) : (s.raiseError e).rndCount = s.rndCount := rfl
@[simp] theorem State.raiseError_report (s : State) (e : Word → Word → Report) : (s.raiseError e).report = some (e s.opcode s.instrAddr) := rfl
@[simp] theorem State.raiseError_reg (s : State) (e : Word → Word → Report) (y : Reg) : (s.raiseError e).reg y = s.reg y := rfl
@[simp] theorem State.raiseError_memRead (s : State) (e : Word → Word → Report) (i : Nat) : (s.raiseError e).memRead i = s.memRead i := rfl
@[simp] theorem State.raiseError_key (s : State) (e : Word → Word → Report) (j : Fin 16) : (s.raiseError e).key j = s.key j := rfl

/-! ### `advancePc` -/

@[simp] theorem State.advancePc_mem (s : State) : (s.advancePc).mem = s.mem := rfl
@[simp] theorem State.advancePc_V (s : State) : (s.advancePc).V = s.V := rfl
@[simp] theorem State.advancePc_I (s : State) : (s.advancePc).I = s.I := rfl
@[simp] theorem State.advancePc_pc (s : State) : (s.advancePc).pc = s.pc + 2 := rfl
@[simp] theorem State.advancePc_stack (s : State) : (s.advancePc).stack = s.stack := rfl
@[simp] theorem State.advancePc_sp (s : State) : (s.advancePc).sp = s.sp := rfl
@[simp] theorem State.advancePc_DT (s : State) : (s.advancePc).DT = s.DT := rfl
@[simp] theorem State.advancePc_ST (s : State) : (s.advancePc).ST = s.ST := rfl
@[simp] theorem State.advancePc_video (s : State) : (s.advancePc).video = s.video := rfl
@[simp] theorem State.advancePc_opcode (s : State) : (s.advancePc).opcode = s.opcode := rfl
@[simp] theorem State.advancePc_keypad (s : State) : (s.advancePc).keypad = s.keypad := rfl
@[simp] theorem State.advancePc_keypadInputs (s : State) : (s.advancePc).keypadInputs = s.keypadInputs := rfl
@[simp] theorem State.advancePc_quirks (s : State) : (s.advancePc).quirks = s.quirks := rfl
@[simp] theorem State.advancePc_rndCount (s : State) : (s.advancePc).rndCount = s.rndCount := rfl
@[simp] theorem State.advancePc_report (s : State) : (s.advancePc).report = s.report := rfl
@[simp] theorem State.advancePc_reg (s : State) (y : Reg) : (s.advancePc).reg y = s.reg y := rfl
@[simp] theorem State.advancePc_memRead (s : State) (i : Nat) : (s.advancePc).memRead i = s.memRead i := rfl
@[simp] theorem State.advancePc_key (s : State) (j : Fin 16) : (s.advancePc).key j = s.key j := rfl

/-! ### `latch` -/

@[simp] theorem State.latch_mem (s : State) : (s.latch).mem = s.mem := rfl
@[simp] theorem State.latch_V (s : State) : (s.latch).V = s.V := rfl
@[simp] theorem State.latch_I (s : State) : (s.latch).I = s.I := rfl
@[simp] theorem State.latch_pc (s : State) : (s.latch).pc = s.pc := rfl
@[simp] theorem State.latch_stack (s : State) : (s.latch).stack = s.stack := rfl
@[simp] theorem State.latch_sp (s : State) : (s.latch).sp = s.sp := rfl
@[simp] theorem State.latch_DT (s : State) : (s.latch).DT = s.DT := rfl
@[simp] theorem State.latch_ST (s : State) : (s.latch).ST = s.ST := rfl
@[simp] theorem State.latch_video (s : State) : (s.latch).video = s.video := rfl
@[simp] theorem State.latch_opcode (s : State) : (s.latch).opcode = s.fetchWord := rfl
@[simp] theorem State.latch_keypad (s : State) : (s.latch).keypad = s.keypad := rfl
@[simp] theorem State.latch_keypadInputs (s : State) : (s.latch).keypadInputs = s.keypadInputs := rfl
@[simp] theorem State.latch_quirks (s : State) : (s.latch).quirks = s.quirks := rfl
@[simp] theorem State.latch_rndCount (s : State) : (s.latch).rndCount = s.rndCount := rfl
@[simp] theorem State.latch_report (s : State) : (s.latch).report = none := rfl
@[simp] theorem State.latch_reg (s : State) (y : Reg) : (s.latch).reg y = s.reg y := rfl
@[simp] theorem State.latch_memRead (s : State) (i : Nat) : (s.latch).memRead i = s.memRead i := rfl
@[simp] theorem State.latch_key (s : State) (j : Fin 16) : (s.latch).key j = s.key j := rfl

/-! ### `tick` -/

@[simp] theorem State.tick_mem (s : State) : (s.tick).mem = s.mem := rfl
@[simp] theorem State.tick_V (s : State) : (s.tick).V = s.V := rfl
@[simp] theorem State.tick_I (s : State) : (s.tick).I = s.I := rfl
@[simp] theorem State.tick_pc (s : State) : (s.tick).pc = s.pc := rfl
@[simp] theorem State.tick_stack (s : State) : (s.tick).stack = s.stack := rfl
@[simp] theorem State.tick_sp (s : State) : (s.tick).sp = s.sp := rfl
@[simp] theorem State.tick_DT (s : State) : (s.tick).DT = tickTimer s.DT := rfl
@[simp] theorem State.tick_ST (s : State) : (s.tick).ST = tickTimer s.ST := rfl
@[simp] theorem State.tick_video (s : State) : (s.tick).video = s.video := rfl
@[simp] theorem State.tick_opcode (s : State) : (s.tick).opcode = s.opcode := rfl
@[simp] theorem State.tick_keypad (s : State) : (s.tick).keypad = s.keypad := rfl
@[simp] theorem State.tick_keypadInputs (s : State) : (s.tick).keypadInputs = s.keypadInputs := rfl
@[simp] theorem State.tick_quirks (s : State) : (s.tick).quirks = s.quirks := rfl
@[simp] theorem State.tick_rndCount (s : State) : (s.tick).rndCount = s.rndCount := rfl
@[simp] theorem State.tick_report (s : State) : (s.tick).report = s.report := rfl
@[simp] theorem State.tick_reg (s : State) (y : Reg) : (s.tick).reg y = s.reg y := rfl
@[simp] theorem State.tick_memRead (s : State) (i : Nat) : (s.tick).memRead i = s.memRead i := rfl
@[simp] theorem State.tick_key (s : State) (j : Fin 16) : (s.tick).key j = s.key j := rfl

/-! ### `consumeRnd` -/

@[simp] theorem State.consumeRnd_mem (s : State) : (s.consumeRnd).mem = s.mem := rfl
@[simp] theorem State.consumeRnd_V (s : State) : (s.consumeRnd).V = s.V := rfl
@[simp] theorem State.consumeRnd_I (s : State) : (s.consumeRnd).I = s.I := rfl
@[simp] theorem State.consumeRnd_pc (s : State) : (s.consumeRnd).pc = s.pc := rfl
@[simp] theorem State.consumeRnd_stack (s : State) : (s.consumeRnd).stack = s.stack := rfl
@[simp] theorem State.consumeRnd_sp (s : State) : (s.consumeRnd).sp = s.sp := rfl
@[simp] theorem State.consumeRnd_DT (s : State) : (s.consumeRnd).DT = s.DT := rfl
@[simp] theorem State.consumeRnd_ST (s : State) : (s.consumeRnd).ST = s.ST := rfl
@[simp] theorem State.consumeRnd_video (s : State) : (s.consumeRnd).video = s.video := rfl
@[simp] theorem State.consumeRnd_opcode (s : State) : (s.consumeRnd).opcode = s.opcode := rfl
@[simp] theorem State.consumeRnd_keypad (s : State) : (s.consumeRnd).keypad = s.keypad := rfl
@[simp] theorem State.consumeRnd_keypadInputs (s : State) : (s.consumeRnd).keypadInputs = s.keypadInputs := rfl
@[simp] theorem State.consumeRnd_quirks (s : State) : (s.consumeRnd).quirks = s.quirks := rfl
@[simp] theorem State.consumeRnd_rndCount (s : State) : (s.consumeRnd).rndCount = s.rndCount + 1 := rfl
@[simp] theorem State.consumeRnd_report (s : State) : (s.consumeRnd).report = s.report := rfl
@[simp] theorem State.consumeRnd_reg (s : State) (y : Reg) : (s.consumeRnd).reg y = s.reg y := rfl
@[simp] theorem State.consumeRnd_memRead (s : State) (i : Nat) : (s.consumeRnd).memRead i = s.memRead i := rfl
@[simp] theorem State.consumeRnd_key (s : State) (j : Fin 16) : (s.consumeRnd).key j = s.key j := rfl

/-! ### `setVF` -/

@[simp] theorem State.setVF_mem (s : State) (f : Byte) : (s.setVF f).mem = s.mem := rfl
@[simp] theorem State.setVF_V (s : State) (f : Byte) : (s.setVF f).V = s.V.set 15 f := rfl
@[simp] theorem State.setVF_I (s : State) (f : Byte) : (s.setVF f).I = s.I := rfl
@[simp] theorem State.setVF_pc (s : State) (f : Byte) : (s.setVF f).pc = s.pc := rfl
@[simp] theorem State.setVF_stack (s : State) (f : Byte) : (s.setVF f).stack = s.stack := rfl
@[simp] theorem State.setVF_sp (s : State) (f : Byte) : (s.setVF f).sp = s.sp := rfl
@[simp] theorem State.setVF_DT (s : State) (f : Byte) : (s.setVF f).DT = s.DT := rfl
@[simp] theorem State.setVF_ST (s : State) (f : Byte) : (s.setVF f).ST = s.ST := rfl
@[simp] theorem State.setVF_video (s : State) (f : Byte) : (s.setVF f).video = s.video := rfl
@[simp] theorem State.setVF_opcode (s : State) (f : Byte) : (s.setVF f).opcode = s.opcode := rfl
@[simp] theorem State.setVF_keypad (s : State) (f : Byte) : (s.setVF f).keypad = s.keypad := rfl
@[simp] theorem State.setVF_keypadInputs (s : State) (f : Byte) : (s.setVF f).keypadInputs = s.keypadInputs := rfl
@[simp] theorem State.setVF_quirks (s : State) (f : Byte) : (s.setVF f).quirks = s.quirks := rfl
@[simp] theorem State.setVF_rndCount (s : State) (f : Byte) : (s.setVF f).rndCount = s.rndCount := rfl
@[simp] theorem State.setVF_report (s : State) (f : Byte) : (s.setVF f).report = s.report := rfl
@[simp] theorem State.setVF_memRead (s : State) (f : Byte) (i : Nat) : (s.setVF f).memRead i = s.memRead i := rfl
@[simp] theorem State.setVF_key (s : State) (f : Byte) (j : Fin 16) : (s.setVF f).key j = s.key j := rfl

/-! ### `writeWithFlag` -/

@[simp] theorem State.writeWithFlag_mem (s : State) (x : Reg) (r f : Byte) : (s.writeWithFlag x r f).mem = s.mem := rfl
@[simp] theorem State.writeWithFlag_V (s : State) (x : Reg) (r f : Byte) : (s.writeWithFlag x r f).V = (s.V.set x.val r).set 15 f := rfl
@[simp] theorem State.writeWithFlag_I (s : State) (x : Reg) (r f : Byte) : (s.writeWithFlag x r f).I = s.I := rfl
@[simp] theorem State.writeWithFlag_pc (s : State) (x : Reg) (r f : Byte) : (s.writeWithFlag x r f).pc = s.pc := rfl
@[simp] theorem State.writeWithFlag_stack (s : State) (x : Reg) (r f : Byte) : (s.writeWithFlag x r f).stack = s.stack := rfl
@[simp] theorem State.writeWithFlag_sp (s : State) (x : Reg) (r f : Byte) : (s.writeWithFlag x r f).sp = s.sp := rfl
@[simp] theorem State.writeWithFlag_DT (s : State) (x : Reg) (r f : Byte) : (s.writeWithFlag x r f).DT = s.DT := rfl
@[simp] theorem State.writeWithFlag_ST (s : State) (x : Reg) (r f : Byte) : (s.writeWithFlag x r f).ST = s.ST := rfl
@[simp] theorem State.writeWithFlag_video (s : State) (x : Reg) (r f : Byte) : (s.writeWithFlag x r f).video = s.video := rfl
@[simp] theorem State.writeWithFlag_opcode (s : State) (x : Reg) (r f : Byte) : (s.writeWithFlag x r f).opcode = s.opcode := rfl
@[simp] theorem State.writeWithFlag_keypad (s : State) (x : Reg) (r f : Byte) : (s.writeWithFlag x r f).keypad = s.keypad := rfl
@[simp] theorem State.writeWithFlag_keypadInputs (s : State) (x : Reg) (r f : Byte) : (s.writeWithFlag x r f).keypadInputs = s.keypadInputs := rfl
@[simp] theorem State.writeWithFlag_quirks (s : State) (x : Reg) (r f : Byte) : (s.writeWithFlag x r f).quirks = s.quirks := rfl
@[simp] theorem State.writeWithFlag_rndCount (s : State) (x : Reg) (r f : Byte) : (s.writeWithFlag x r f).rndCount = s.rndCount := rfl
@[simp] theorem State.writeWithFlag_report (s : State) (x : Reg) (r f : Byte) : (s.writeWithFlag x r f).report = s.report := rfl
@[simp] theorem State.writeWithFlag_memRead (s : State) (x : Reg) (r f : Byte) (i : Nat) : (s.writeWithFlag x r f).memRead i = s.memRead i := rfl
@[simp] theorem State.writeWithFlag_key (s : State) (x : Reg) (r f : Byte) (j : Fin 16) : (s.writeWithFlag x r f).key j = s.key j := rfl

/-! ### `skipIf` -/

@[simp] theorem State.skipIf_mem (s : State) (c : Bool) : (s.skipIf c).mem = s.mem := by cases c <;> rfl
@[simp] theorem State.skipIf_V (s : State) (c : Bool) : (s.skipIf c).V = s.V := by cases c <;> rfl
@[simp] theorem State.skipIf_I (s : State) (c : Bool) : (s.skipIf c).I = s.I := by cases c <;> rfl
@[simp] theorem State.skipIf_pc (s : State) (c : Bool) : (s.skipIf c).pc = if c then s.pc + 2 else s.pc := by cases c <;> rfl
@[simp] theorem State.skipIf_stack (s : State) (c : Bool) : (s.skipIf c).stack = s.stack := by cases c <;> rfl
@[simp] theorem State.skipIf_sp (s : State) (c : Bool) : (s.skipIf c).sp = s.sp := by cases c <;> rfl
@[simp] theorem State.skipIf_DT (s : State) (c : Bool) : (s.skipIf c).DT = s.DT := by cases c <;> rfl
@[simp] theorem State.skipIf_ST (s : State) (c : Bool) : (s.skipIf c).ST = s.ST := by cases c <;> rfl
@[simp] theorem State.skipIf_video (s : State) (c : Bool) : (s.skipIf c).video = s.video := by cases c <;> rfl
@[simp] theorem State.skipIf_opcode (s : State) (c : Bool) : (s.skipIf c).opcode = s.opcode := by cases c <;> rfl
@[simp] theorem State.skipIf_keypad (s : State) (c : Bool) : (s.skipIf c).keypad = s.keypad := by cases c <;> rfl
@[simp] theorem State.skipIf_keypadInputs (s : State) (c : Bool) : (s.skipIf c).keypadInputs = s.keypadInputs := by cases c <;> rfl
@[simp] theorem State.skipIf_quirks (s : State) (c : Bool) : (s.skipIf c).quirks = s.quirks := by cases c <;> rfl
@[simp] theorem State.skipIf_rndCount (s : State) (c : Bool) : (s.skipIf c).rndCount = s.rndCount := by cases c <;> rfl
@[simp] theorem State.skipIf_report (s : State) (c : Bool) : (s.skipIf c).report = s.report := by cases c <;> rfl

/-! ### `takeKeypad` -/

@[simp] theorem State.takeKeypad_mem (s : State) : (s.takeKeypad).mem = s.mem := by unfold State.takeKeypad; split <;> simp [*]
@[simp] theorem State.takeKeypad_V (s : State) : (s.takeKeypad).V = s.V := by unfold State.takeKeypad; split <;> simp [*]
@[simp] theorem State.takeKeypad_I (s : State) : (s.takeKeypad).I = s.I := by unfold State.takeKeypad; split <;> simp [*]
@[simp] theorem State.takeKeypad_pc (s : State) : (s.takeKeypad).pc = s.pc := by unfold State.takeKeypad; split <;> simp [*]
@[simp] theorem State.takeKeypad_stack (s : State) : (s.takeKeypad).stack = s.stack := by unfold State.takeKeypad; split <;> simp [*]
@[simp] theorem State.takeKeypad_sp (s : State) : (s.takeKeypad).sp = s.sp := by unfold State.takeKeypad; split <;> simp [*]
@[simp] theorem State.takeKeypad_DT (s : State) : (s.takeKeypad).DT = s.DT := by unfold State.takeKeypad; split <;> simp [*]
@[simp] theorem State.takeKeypad_ST (s : State) : (s.takeKeypad).ST = s.ST := by unfold State.takeKeypad; split <;> simp [*]
@[simp] theorem State.takeKeypad_video (s : State) : (s.takeKeypad).video = s.video := by unfold State.takeKeypad; split <;> simp [*]
@[simp] theorem State.takeKeypad_opcode (s : State) : (s.takeKeypad).opcode = s.opcode := by unfold State.takeKeypad; split <;> simp [*]
@[simp] theorem State.takeKeypad_keypad (s : State) : (s.takeKeypad).keypad = s.keypadInputs.headD s.keypad := by unfold State.takeKeypad; split <;> simp [*]
@[simp] theorem State.takeKeypad_keypadInputs (s : State) : (s.takeKeypad).keypadInputs = s.keypadInputs.tail := by unfold State.takeKeypad; split <;> simp [*]
@[simp] theorem State.takeKeypad_quirks (s : State) : (s.takeKeypad).quirks = s.quirks := by unfold State.takeKeypad; split <;> simp [*]
@[simp] theorem State.takeKeypad_rndCount (s : State) : (s.takeKeypad).rndCount = s.rndCount := by unfold State.takeKeypad; split <;> simp [*]
@[simp] theorem State.takeKeypad_report (s : State) : (s.takeKeypad).report = s.report := by unfold State.takeKeypad; split <;> simp [*]

/-! ### `memWriteBytes` -/

@[simp] theorem State.memWriteBytes_V (s : State) (a : Nat) (vs : List Byte) : (s.memWriteBytes a vs).V = s.V := by
  induction vs generalizing s a with
  | nil => rfl
  | cons v vs ih => exact ih (s.memWrite a v) (a + 1)
@[simp] theorem State.memWriteBytes_I (s : State) (a : Nat) (vs : List Byte) : (s.memWriteBytes a vs).I = s.I := by
  induction vs generalizing s a with
  | nil => rfl
  | cons v vs ih => exact ih (s.memWrite a v) (a + 1)
@[simp] theorem State.memWriteBytes_pc (s : State) (a : Nat) (vs : List Byte) : (s.memWriteBytes a vs).pc = s.pc := by
  induction vs generalizing s a with
  | nil => rfl
  | cons v vs ih => exact ih (s.memWrite a v) (a + 1)
@[simp] theorem State.memWriteBytes_stack (s : State) (a : Nat) (vs : List Byte) : (s.memWriteBytes a vs).stack = s.stack := by
  induction vs generalizing s a with
  | nil => rfl
  | cons v vs ih => exact ih (s.memWrite a v) (a + 1)
@[simp] theorem State.memWriteBytes_sp (s : State) (a : Nat) (vs : List Byte) : (s.memWriteBytes a vs).sp = s.sp := by
  induction vs generalizing s a with
  | nil => rfl
  | cons v vs ih => exact ih (s.memWrite a v) (a + 1)
@[simp] theorem State.memWriteBytes_DT (s : State) (a : Nat) (vs : List Byte) : (s.memWriteBytes a vs).DT = s.DT := by
  induction vs generalizing s a with
  | nil => rfl
  | cons v vs ih => exact ih (s.memWrite a v) (a + 1)
@[simp] theorem State.memWriteBytes_ST (s : State) (a : Nat) (vs : List Byte) : (s.memWriteBytes a vs).ST = s.ST := by
  induction vs generalizing s a with
  | nil => rfl
  | cons v vs ih => exact ih (s.memWrite a v) (a + 1)
@[simp] theorem State.memWriteBytes_video (s : State) (a : Nat) (vs : List Byte) : (s.memWriteBytes a vs).video = s.video := by
  induction vs generalizing s a with
  | nil => rfl
  | cons v vs ih => exact ih (s.memWrite a v) (a + 1)
@[simp] theorem State.memWriteBytes_opcode (s : State) (a : Nat) (vs : List Byte) : (s.memWriteBytes a vs).opcode = s.opcode := by
  induction vs generalizing s a with
  | nil => rfl
  | cons v vs ih => exact ih (s.memWrite a v) (a + 1)
@[simp] theorem State.memWriteBytes_keypad (s : State) (a : Nat) (vs : List Byte) : (s.memWriteBytes a vs).keypad = s.keypad := by
  induction vs generalizing s a with
  | nil => rfl
  | cons v vs ih => exact ih (s.memWrite a v) (a + 1)
@[simp] theorem State.memWriteBytes_keypadInputs (s : State) (a : Nat) (vs : List Byte) : (s.memWriteBytes a vs).keypadInputs = s.keypadInputs := by
  induction vs generalizing s a with
  | nil => rfl
  | cons v vs ih => exact ih (s.memWrite a v) (a + 1)
@[simp] theorem State.memWriteBytes_quirks (s : State) (a : Nat) (vs : List Byte) : (s.memWriteBytes a vs).quirks = s.quirks := by
  induction vs generalizing s a with
  | nil => rfl
  | cons v vs ih => exact ih (s.memWrite a v) (a + 1)
@[simp] theorem State.memWriteBytes_rndCount (s : State) (a : Nat) (vs : List Byte) : (s.memWriteBytes a vs).rndCount = s.rndCount := by
  induction vs generalizing s a with
  | nil => rfl
  | cons v vs ih => exact ih (s.memWrite a v) (a + 1)
@[simp] theorem State.memWriteBytes_report (s : State) (a : Nat) (vs : List Byte) : (s.memWriteBytes a vs).report = s.report := by
  induction vs generalizing s a with
  | nil => rfl
  | cons v vs ih => exact ih (s.memWrite a v) (a + 1)

/-! ### Registers -/

theorem State.setReg_reg (s : State) (x y : Reg) (b : Byte) :
    (s.setReg x b).reg y = if y = x then b else s.reg y := by
  simp only [State.reg, State.setReg_V, Fin.getElem_fin, Vector.getElem_set, Fin.ext_iff, eq_comm]

@[simp] theorem State.setReg_reg_self (s : State) (x : Reg) (b : Byte) : (s.setReg x b).reg x = b := by
  simp [State.setReg_reg]

@[simp] theorem State.setVF_reg (s : State) (f : Byte) (y : Reg) :
    (s.setVF f).reg y = if y = 0xF then f else s.reg y := State.setReg_reg s _ y f

@[simp] theorem State.writeWithFlag_reg (s : State) (x y : Reg) (r f : Byte) :
    (s.writeWithFlag x r f).reg y = if y = 0xF then f else if y = x then r else s.reg y := by
  simp [State.writeWithFlag, State.setReg_reg]

@[simp] theorem State.skipIf_reg (s : State) (c : Bool) (y : Reg) : (s.skipIf c).reg y = s.reg y := by
  simp [State.reg]

@[simp] theorem State.skipIf_memRead (s : State) (c : Bool) (a : Nat) : (s.skipIf c).memRead a = s.memRead a := by
  simp [State.memRead]

@[simp] theorem State.takeKeypad_memRead (s : State) (a : Nat) : s.takeKeypad.memRead a = s.memRead a := by
  simp [State.memRead]

@[simp] theorem State.memWriteBytes_reg (s : State) (a : Nat) (vs : List Byte) (y : Reg) :
    (s.memWriteBytes a vs).reg y = s.reg y := by
  simp [State.reg]

end Sys2Proof.Machine
end

