-- ==== Sys2Proof/Laws/Memory.lean ====
section
/-! SUPPORT. The laws of main memory: every operation keeps the canonical form, a read after a write gives the value
written and every other address is left alone, and canonical memories that read alike are the same list. -/

namespace Sys2Proof.Machine

theorem Memory.wfFrom_cons {lo b : Nat} {u : Byte} {m : Memory} :
    Memory.wfFrom lo ((b, u) :: m) = true ↔
      lo ≤ b ∧ b < 4096 ∧ u ≠ resetByte b ∧ Memory.wfFrom (b + 1) m = true := by
  simp [Memory.wfFrom, and_assoc]

theorem Memory.wfFrom_mono {lo lo' : Nat} {m : Memory} (h : Memory.wfFrom lo m = true) (hl : lo' ≤ lo) :
    Memory.wfFrom lo' m = true := by
  cases m with
  | nil => rfl
  | cons c m =>
    obtain ⟨b, u⟩ := c
    rw [Memory.wfFrom_cons] at h ⊢
    exact ⟨by omega, h.2⟩

/-- An address below every listed one reads as `init` left it. -/
theorem Memory.read_below {lo : Nat} {m : Memory} {a : Nat} (h : Memory.wfFrom lo m = true) (ha : a < lo) :
    Memory.read m a = resetByte a := by
  induction m generalizing lo with
  | nil => rfl
  | cons c m ih =>
    obtain ⟨b, u⟩ := c
    rw [Memory.wfFrom_cons] at h
    rw [Memory.read, if_neg (by omega)]
    exact ih h.2.2.2 (by omega)

theorem Memory.consCell_wfFrom {lo a : Nat} {v : Byte} {m : Memory} (hlo : lo ≤ a) (ha : a < 4096)
    (h : Memory.wfFrom (a + 1) m = true) : Memory.wfFrom lo (Memory.consCell a v m) = true := by
  unfold Memory.consCell
  split
  · exact Memory.wfFrom_mono h (by omega)
  · rename_i hv
    exact Memory.wfFrom_cons.2 ⟨hlo, ha, hv, h⟩

theorem Memory.consCell_read {a : Nat} {v : Byte} {m : Memory} (h : Memory.wfFrom (a + 1) m = true) (b : Nat) :
    Memory.read (Memory.consCell a v m) b = if b = a then v else Memory.read m b := by
  unfold Memory.consCell
  by_cases hv : v = resetByte a
  · by_cases hb : b = a
    · subst hb
      rw [if_pos hv, if_pos rfl, hv, Memory.read_below h (by omega)]
    · rw [if_pos hv, if_neg hb]
  · rw [if_neg hv, Memory.read]

theorem Memory.write_wfFrom {lo : Nat} {m : Memory} {a : Nat} {v : Byte} (h : Memory.wfFrom lo m = true)
    (hlo : lo ≤ a) (ha : a < 4096) : Memory.wfFrom lo (Memory.write m a v) = true := by
  induction m generalizing lo with
  | nil => exact Memory.consCell_wfFrom hlo ha rfl
  | cons c m ih =>
    obtain ⟨b, u⟩ := c
    have hc := Memory.wfFrom_cons.1 h
    rw [Memory.write]
    split
    · exact Memory.consCell_wfFrom hlo ha (Memory.wfFrom_cons.2 ⟨by omega, hc.2⟩)
    · split
      · rename_i hab
        subst hab
        exact Memory.consCell_wfFrom hlo ha hc.2.2.2
      · exact Memory.wfFrom_cons.2 ⟨hc.1, hc.2.1, hc.2.2.1, ih hc.2.2.2 (by omega)⟩

/-- A write keeps the canonical form. -/
theorem Memory.write_wf {m : Memory} {a : Nat} {v : Byte} (h : Memory.wf m = true) (ha : a < 4096) :
    Memory.wf (Memory.write m a v) = true := Memory.write_wfFrom h (Nat.zero_le a) ha

theorem Memory.write_read_from {lo : Nat} {m : Memory} (h : Memory.wfFrom lo m = true) (a : Nat) (v : Byte) (b : Nat) :
    Memory.read (Memory.write m a v) b = if b = a then v else Memory.read m b := by
  induction m generalizing lo with
  | nil => exact Memory.consCell_read rfl b
  | cons c m ih =>
    obtain ⟨k, u⟩ := c
    have hc := Memory.wfFrom_cons.1 h
    rw [Memory.write]
    split
    · exact Memory.consCell_read (Memory.wfFrom_cons.2 ⟨by omega, hc.2⟩) b
    · split
      · rename_i hak
        subst hak
        rw [Memory.consCell_read hc.2.2.2, Memory.read]
        split <;> rfl
      · rename_i hne hak
        rw [Memory.read, Memory.read, ih hc.2.2.2]
        by_cases hb : b = k
        · simp only [if_pos hb, if_neg (show ¬ b = a by omega)]
        · simp only [if_neg hb]

/-- Read after write. -/
theorem Memory.write_read {m : Memory} (h : Memory.wf m = true) (a : Nat) (v : Byte) (b : Nat) :
    Memory.read (Memory.write m a v) b = if b = a then v else Memory.read m b := Memory.write_read_from h a v b

theorem Memory.wfFrom_ext {lo : Nat} {m m' : Memory} (h : Memory.wfFrom lo m = true) (h' : Memory.wfFrom lo m' = true)
    (hr : ∀ a, Memory.read m a = Memory.read m' a) : m = m' := by
  induction m generalizing lo m' with
  | nil =>
    cases m' with
    | nil => rfl
    | cons c m' =>
      obtain ⟨b, u⟩ := c
      have hc := Memory.wfFrom_cons.1 h'
      have := hr b
      rw [Memory.read, Memory.read, if_pos rfl] at this
      exact absurd this.symm hc.2.2.1
  | cons c m ih =>
    obtain ⟨b, u⟩ := c
    have hc := Memory.wfFrom_cons.1 h
    have hb : Memory.read ((b, u) :: m) b = u := if_pos rfl
    cases m' with
    | nil =>
      rw [hr b] at hb
      exact absurd hb.symm hc.2.2.1
    | cons c' m' =>
      obtain ⟨b', u'⟩ := c'
      have hc' := Memory.wfFrom_cons.1 h'
      have hb' : Memory.read ((b', u') :: m') b' = u' := if_pos rfl
      have hbb : b = b' := by
        rcases Nat.lt_trichotomy b b' with hlt | heq | hlt
        · rw [hr b, Memory.read_below (Memory.wfFrom_cons.2 ⟨Nat.le_refl b', hc'.2⟩) hlt] at hb
          exact absurd hb.symm hc.2.2.1
        · exact heq
        · rw [← hr b', Memory.read_below (Memory.wfFrom_cons.2 ⟨Nat.le_refl b, hc.2⟩) hlt] at hb'
          exact absurd hb'.symm hc'.2.2.1
      subst hbb
      have huu : u = u' := by rw [← hb, hr b, hb']
      subst huu
      congr 1
      refine ih hc.2.2.2 hc'.2.2.2 fun a => ?_
      by_cases ha : a < b + 1
      · rw [Memory.read_below hc.2.2.2 ha, Memory.read_below hc'.2.2.2 ha]
      · have := hr a
        rwa [Memory.read, Memory.read, if_neg (by omega), if_neg (by omega)] at this

/-- Canonical memories that read alike at every address are equal data. -/
theorem Memory.wf_ext {m m' : Memory} (h : Memory.wf m = true) (h' : Memory.wf m' = true)
    (hr : ∀ a, Memory.read m a = Memory.read m' a) : m = m' := Memory.wfFrom_ext h h' hr

/-- Writing a block inside the 4096-byte space keeps the canonical form. -/
theorem Memory.writeBlock_wf {m : Memory} {a : Nat} {vs : List Byte} (h : Memory.wf m = true)
    (ha : a + vs.length ≤ 4096) : Memory.wf (Memory.writeBlock m a vs) = true := by
  induction vs generalizing m a with
  | nil => exact h
  | cons v vs ih =>
    rw [List.length_cons] at ha
    exact ih (Memory.write_wf h (by omega)) (by omega)

/-- A block's bytes read back, and every other address is left alone. -/
theorem Memory.writeBlock_read {m : Memory} {a : Nat} {vs : List Byte} (h : Memory.wf m = true)
    (ha : a + vs.length ≤ 4096) (b : Nat) :
    Memory.read (Memory.writeBlock m a vs) b =
      if a ≤ b ∧ b < a + vs.length then vs.getD (b - a) 0 else Memory.read m b := by
  induction vs generalizing m a with
  | nil => simp [Memory.writeBlock]
  | cons v vs ih =>
    rw [List.length_cons] at ha ⊢
    rw [Memory.writeBlock, ih (Memory.write_wf h (by omega)) (by omega), Memory.write_read h]
    rcases Nat.lt_trichotomy b a with hb | hb | hb
    · rw [if_neg (by omega), if_neg (by omega), if_neg (by omega)]
    · subst hb
      rw [if_neg (by omega), if_pos rfl, if_pos (by omega), Nat.sub_self, List.getD_cons_zero]
    · by_cases hin : b < a + 1 + vs.length
      · rw [if_pos (by omega), if_pos (by omega), show b - a = (b - (a + 1)) + 1 by omega, List.getD_cons_succ]
      · rw [if_neg (by omega), if_neg (by omega), if_neg (by omega)]

/-! ### The state's memory -/

theorem wrapAddr_lt (a : Nat) : wrapAddr a < 4096 := Nat.mod_lt _ (by decide)

/-- A byte store keeps the canonical form (R53). -/
theorem State.memWrite_wf {s : State} (h : Memory.wf s.mem = true) (a : Nat) (v : Byte) :
    Memory.wf (s.memWrite a v).mem = true := Memory.write_wf h (wrapAddr_lt a)

/-- Read after write through the address policy of R52 and R53. -/
theorem State.memWrite_memRead {s : State} (h : Memory.wf s.mem = true) (a : Nat) (v : Byte) (b : Nat) :
    (s.memWrite a v).memRead b = if b % 4096 = a % 4096 then v else s.memRead b := Memory.write_read h _ _ _

/-- A sequence of byte stores keeps the canonical form. -/
theorem State.memWriteBytes_wf {s : State} (h : Memory.wf s.mem = true) (a : Nat) (vs : List Byte) :
    Memory.wf (s.memWriteBytes a vs).mem = true := by
  induction vs generalizing s a with
  | nil => exact h
  | cons v vs ih => exact ih (State.memWrite_wf h a v) (a + 1)

/-- What a sequence of at most 4096 byte stores leaves: byte `k` at `a + k`, each address reduced on its own, and every
other address as before (R55, R59). -/
theorem State.memWriteBytes_memRead {s : State} (h : Memory.wf s.mem = true) (a : Nat) (vs : List Byte)
    (hl : vs.length ≤ 4096) (b : Nat) :
    (s.memWriteBytes a vs).memRead b =
      if (b + 4096 - a % 4096) % 4096 < vs.length then vs.getD ((b + 4096 - a % 4096) % 4096) 0 else s.memRead b := by
  induction vs generalizing s a with
  | nil => simp [State.memWriteBytes]
  | cons v vs ih =>
    rw [List.length_cons] at hl ⊢
    rw [State.memWriteBytes, ih (State.memWrite_wf h a v) (a + 1) (by omega), State.memWrite_memRead h]
    by_cases hb : b % 4096 = a % 4096
    · rw [if_neg (by omega), if_pos hb, if_pos (by omega), show (b + 4096 - a % 4096) % 4096 = 0 by omega,
        List.getD_cons_zero]
    · have hk : (b + 4096 - a % 4096) % 4096 = (b + 4096 - (a + 1) % 4096) % 4096 + 1 := by omega
      rw [hk, List.getD_cons_succ, if_neg hb]
      by_cases hin : (b + 4096 - (a + 1) % 4096) % 4096 < vs.length
      · rw [if_pos hin, if_pos (by omega)]
      · rw [if_neg hin, if_neg (by omega)]

/-- Byte `i` of a sequence of stores reads back at `a + i`. -/
theorem State.memWriteBytes_memRead_at {s : State} (h : Memory.wf s.mem = true) (a : Nat) (vs : List Byte)
    (hl : vs.length ≤ 4096) (i : Nat) (hi : i < vs.length) : (s.memWriteBytes a vs).memRead (a + i) = vs[i] := by
  have hk : (a + i + 4096 - a % 4096) % 4096 = i := by omega
  have hlt : (a + i + 4096 - a % 4096) % 4096 < vs.length := by omega
  rw [State.memWriteBytes_memRead h a vs hl, if_pos hlt, hk, List.getD_eq_getElem _ _ hi]

/-- A sequence of stores leaves every other address alone. -/
theorem State.memWriteBytes_memRead_off {s : State} (h : Memory.wf s.mem = true) (a : Nat) (vs : List Byte)
    (hl : vs.length ≤ 4096) (b : Nat) (hb : ∀ i, i < vs.length → wrapAddr b ≠ wrapAddr (a + i)) :
    (s.memWriteBytes a vs).memRead b = s.memRead b := by
  rw [State.memWriteBytes_memRead h a vs hl, if_neg]
  intro hlt
  refine hb _ hlt ?_
  simp only [wrapAddr, Config.memSize]
  omega

/-- A sequence of stores changes nothing but memory. -/
theorem State.memWriteBytes_eq (s : State) (a : Nat) (vs : List Byte) :
    s.memWriteBytes a vs = { s with mem := (s.memWriteBytes a vs).mem } := by
  induction vs generalizing s a with
  | nil => rfl
  | cons v vs ih => exact ih (s.memWrite a v) (a + 1)

/-- Addresses that agree modulo 4096 read alike (R52). -/
theorem State.memRead_mod (s : State) {a b : Nat} (h : a % 4096 = b % 4096) : s.memRead a = s.memRead b := by
  simp only [State.memRead, wrapAddr, Config.memSize, h]

/-! ### The ROM load and the launch -/

theorem romMax_fits (rom : List Byte) : Config.progBase + (rom.take Config.romMax).length ≤ 4096 := by
  rw [List.length_take]
  exact Nat.add_le_of_le_sub' (by decide) (Nat.min_le_left _ _)

theorem State.loadRom_wf {s : State} (h : Memory.wf s.mem = true) (rom : List Byte) :
    Memory.wf (s.loadRom rom).1.mem = true := Memory.writeBlock_wf h (romMax_fits rom)

/-- A byte after the ROM load: the ROM's where one was written, else the byte before (R193). -/
theorem State.loadRom_memRead {s : State} (h : Memory.wf s.mem = true) (rom : List Byte) {a : Nat} (ha : a < 4096) :
    (s.loadRom rom).1.memRead a =
      if 0x200 ≤ a ∧ a < 0x200 + (rom.take 0xE00).length then (rom.take 0xE00).getD (a - 0x200) 0 else s.memRead a := by
  have := Memory.writeBlock_read h (romMax_fits rom) a
  simp only [State.memRead, wrapAddr, Config.memSize, Nat.mod_eq_of_lt ha]
  exact this

/-- The two ways a launch goes: the ROM fits and the loaded machine is the launch state, or it is refused (R193). -/
theorem State.launch_cases (q : Quirks) (rom : List Byte) :
    (rom.length ≤ 0xE00 ∧ State.launch q rom = .ok ((State.reset.configure q).loadRom rom).1) ∨
    (0xE00 < rom.length ∧ State.launch q rom = .error (.romTooLarge rom.length)) := by
  by_cases h : 0xE00 < rom.length
  · exact .inr ⟨h, by simp [State.launch, State.loadRom, Config.romMax, h]⟩
  · exact .inl ⟨Nat.le_of_not_lt h, by simp [State.launch, State.loadRom, Config.romMax, h]⟩

end Sys2Proof.Machine
end

