-- ==== Sys2Proof/Laws/Cycle.lean ====
section
/-! SUPPORT. What the shared operations under the handlers and the cycle around them can do, each said once: the stack
index, the block transfers, a timer's tick, the fetched state, and the two ways a step goes. -/

namespace Sys2Proof.Machine

/-! ### Shared operations of the handlers -/

/-- A stack instruction answers a next state inside the stack and stops outside it. -/
theorem withStackIndex_cases (k : Byte) (body : Fin 16 → State) :
    (∃ h : k.toNat < 16, withStackIndex k body = .next (body ⟨k.toNat, h⟩)) ∨
    (16 ≤ k.toNat ∧ withStackIndex k body = .fault .stackPointerOutOfRange) := by
  unfold withStackIndex
  by_cases h : k.toNat < 16
  · exact .inl ⟨h, dif_pos h⟩
  · exact .inr ⟨by omega, dif_neg h⟩

/-- The skips in one equation (R124). -/
theorem State.skipIf_eq (s : State) (c : Bool) : s.skipIf c = { s with pc := if c then s.pc + 2 else s.pc } := by
  cases c <;> rfl

theorem selector_val (b : Byte) : (selector b).val = b.toNat % 16 := by
  simp [selector]

/-- The block transfers move V0 to Vx, one register each. -/
theorem regsUpTo_length (x : Reg) : (regsUpTo x).length = x.val + 1 := by
  simp [regsUpTo]

theorem regsUpTo_getElem (x : Reg) (k : Nat) (h : k < (regsUpTo x).length) :
    (regsUpTo x)[k] = ⟨k, by rw [regsUpTo_length] at h; omega⟩ := by
  simp [regsUpTo]

theorem mem_regsUpTo (x i : Reg) : i ∈ regsUpTo x ↔ i ≤ x := by
  constructor
  · intro h
    obtain ⟨k, hk, rfl⟩ := List.mem_iff_getElem.1 h
    rw [regsUpTo_getElem]
    rw [regsUpTo_length] at hk
    exact Fin.le_def.2 (by simp only; omega)
  · intro h
    have hk : i.val < (regsUpTo x).length := by rw [regsUpTo_length]; have := Fin.le_def.1 h; omega
    exact List.mem_iff_getElem.2 ⟨i.val, hk, regsUpTo_getElem x i.val hk⟩

/-- A run of block loads: each named register holds its byte, and nothing but `V` changes (R146). -/
theorem State.loads_spec (s : State) (l : List Reg) :
    (∀ i, (l.foldl State.loadOne s).reg i = if i ∈ l then s.memRead (s.dataAddr i.val) else s.reg i) ∧
      l.foldl State.loadOne s = { s with V := (l.foldl State.loadOne s).V } := by
  induction l generalizing s with
  | nil => simp
  | cons r l ih =>
    obtain ⟨hr, ho⟩ := ih (s.loadOne r)
    refine ⟨fun i => ?_, ?_⟩
    · rw [List.foldl_cons, hr]
      by_cases hi : i ∈ l
      · rw [if_pos hi, if_pos (List.mem_cons_of_mem _ hi)]
        rfl
      · rw [if_neg hi, State.loadOne, State.setReg_reg]
        by_cases hir : i = r
        · simp [hir]
        · simp [hir, hi]
    · exact ho

/-- `I` after a block transfer, in numbers (R144). -/
theorem State.indexAfterBlock_toNat (s : State) (x : Reg) :
    (s.indexAfterBlock x).toNat =
      if s.quirks.loadStoreIncI then (s.I.toNat + x.val + 1) % 65536 else s.I.toNat := by
  unfold State.indexAfterBlock
  split
  · simp only [BitVec.toNat_add, BitVec.toNat_ofNat]
    omega
  · rfl

theorem zextAddr_toNat (nnn : BitVec 12) : (zextAddr nnn).toNat = nnn.toNat := by
  simp only [zextAddr, BitVec.toNat_setWidth]
  exact Nat.mod_eq_of_lt (Nat.lt_trans nnn.isLt (by decide))

theorem zextByte_toNat (b : Byte) : (zextByte b).toNat = b.toNat := by
  simp only [zextByte, BitVec.toNat_setWidth]
  exact Nat.mod_eq_of_lt (Nat.lt_trans b.isLt (by decide))

theorem flagByte_toNat (f : Bool) : (flagByte f).toNat = if f then 1 else 0 := by
  cases f <;> rfl

/-- The three ways CALL goes: full, pushed, or outside the legal `sp` (R122, R173). -/
theorem execCall_cases (nnn : BitVec 12) (s : State) :
    (s.sp = 16 ∧ execCall nnn s = .next (s.raiseError .stackOverflow)) ∨
    (∃ k : Fin 16, s.sp.toNat = k.val ∧
      execCall nnn s = .next (((s.setStack k s.pc).setSp (s.sp + 1)).setPc (zextAddr nnn))) ∨
    (16 < s.sp.toNat ∧ execCall nnn s = .fault .stackPointerOutOfRange) := by
  unfold execCall
  by_cases h : s.sp = 16
  · exact .inl ⟨h, if_pos h⟩
  · have hne : s.sp.toNat ≠ 16 := fun he => h (BitVec.eq_of_toNat_eq he)
    rw [if_neg h]
    rcases withStackIndex_cases s.sp fun k => ((s.setStack k s.pc).setSp (s.sp + 1)).setPc (zextAddr nnn) with
      ⟨hk, he⟩ | ⟨hk, he⟩
    · exact .inr (.inl ⟨⟨_, hk⟩, rfl, he⟩)
    · exact .inr (.inr ⟨by omega, he⟩)

/-- The three ways RET goes: empty, popped, or outside the legal `sp` (R123, R174). -/
theorem execRet_cases (s : State) :
    (s.sp = 0 ∧ execRet s = .next (s.raiseError .stackUnderflow)) ∨
    (∃ k : Fin 16, s.sp.toNat = k.val + 1 ∧ (s.sp - 1).toNat = k.val ∧
      execRet s = .next ((s.setSp (s.sp - 1)).setPc s.stack[k])) ∨
    (16 < s.sp.toNat ∧ execRet s = .fault .stackPointerOutOfRange) := by
  unfold execRet
  by_cases h : s.sp = 0
  · exact .inl ⟨h, if_pos h⟩
  · have hne : s.sp.toNat ≠ 0 := fun he => h (BitVec.eq_of_toNat_eq he)
    have hlt := s.sp.isLt
    have hsub : (s.sp - 1).toNat = s.sp.toNat - 1 := by
      rw [BitVec.toNat_sub, show (1 : Byte).toNat = 1 from rfl]
      omega
    rw [if_neg h]
    rcases withStackIndex_cases (s.sp - 1) fun k => (s.setSp (s.sp - 1)).setPc s.stack[k] with ⟨hk, he⟩ | ⟨hk, he⟩
    · exact .inr (.inl ⟨⟨_, hk⟩, by simp only; omega, rfl, he⟩)
    · exact .inr (.inr ⟨by omega, he⟩)

/-! ### The cycle -/

/-- A timer's tick in numbers (R94). -/
theorem tickTimer_eq (t : Byte) : tickTimer t = ticked t := by
  apply BitVec.eq_of_toNat_eq
  have := t.isLt
  unfold tickTimer
  split
  · rw [BitVec.toNat_sub, show (1 : Byte).toNat = 1 from rfl, BitVec.toNat_ofNat]; omega
  · simp only [BitVec.toNat_ofNat]; omega

/-- The host's keypad write does not change what is fetched. -/
@[simp] theorem State.takeKeypad_fetchWord (s : State) : s.takeKeypad.fetchWord = s.fetchWord := by
  simp [State.fetchWord, State.memReadWord]

/-- The state a handler runs in. -/
theorem State.beginCycle_eq (s : State) : s.beginCycle = s.fetched := by
  simp only [State.beginCycle, State.latch, State.advancePc, State.setPc, State.takeKeypad_fetchWord]
  simp

theorem State.tick_eq (s : State) : s.tick = { s with DT := ticked s.DT, ST := ticked s.ST } := by
  simp only [State.tick, tickTimer_eq]

/-- A step is the decoded instruction's handler, or DecodeError, and then the tick. -/
theorem step_cases (s : State) :
    (∃ i, decode s.fetchWord = .ok i ∧ step s = tickResult (exec i s.fetched)) ∨
    (∃ r, decode s.fetchWord = .error r ∧ step s = .next (s.fetched.raiseError .decodeError).tick) := by
  have h : step s = tickResult s.fetched.execute := by
    rw [← State.beginCycle_eq]; rfl
  have hop : s.fetched.opcode = s.fetchWord := rfl
  rw [h]
  unfold State.execute
  rw [hop]
  cases hd : decode s.fetchWord with
  | ok i => exact .inl ⟨i, rfl, rfl⟩
  | error r => exact .inr ⟨r, rfl, rfl⟩

/-- One step more of a run, of any machine. -/
theorem core_run_succ (M : Host.Core) {s t : M.State} (k : Nat) (h : M.step s = .next t) : M.run (k + 1) s = M.run k t := by
  rw [Host.Core.run, h]

/-- One cycle more of a run. -/
theorem run_succ {s t : State} (k : Nat) (h : step s = .next t) :
    Host.Core.run core (k + 1) s = Host.Core.run core k t := core_run_succ core k h

/-- A clean run is a run: after its cycles there is a state. -/
theorem State.cleanRun_run {k : Nat} {s : State} (h : s.cleanRun k) : ∃ t, Host.Core.run core k s = .next t := by
  induction k generalizing s with
  | zero => exact ⟨s, rfl⟩
  | succ k ih =>
    obtain ⟨t, ht, _, hk⟩ := h
    exact run_succ k ht ▸ ih hk

end Sys2Proof.Machine
end

