-- ==== Sys2Proof/Laws/Decode.lean ====
section
/-! SUPPORT. What the fields of a word are in arithmetic, the fields of a word written in each format of R71, and what
the dispatcher answers for each family, so that no later proof unfolds the tables. -/

namespace Sys2Proof

/-! ### Fields (R72) -/

theorem fieldFamily_val (op : Word) : (fieldFamily op).val = op.toNat / 4096 := by
  have := op.isLt
  simp only [fieldFamily, BitVec.val_toFin, BitVec.extractLsb'_toNat, Nat.shiftRight_eq_div_pow]
  omega

theorem fieldX_val (op : Word) : (fieldX op).val = op.toNat / 256 % 16 := by
  simp [fieldX, Nat.shiftRight_eq_div_pow]

theorem fieldY_val (op : Word) : (fieldY op).val = op.toNat / 16 % 16 := by
  simp [fieldY, Nat.shiftRight_eq_div_pow]

theorem fieldN_val (op : Word) : (fieldN op).val = op.toNat % 16 := by
  simp [fieldN]

theorem fieldKK_toNat (op : Word) : (fieldKK op).toNat = op.toNat % 256 := by
  simp [fieldKK]

theorem fieldNNN_toNat (op : Word) : (fieldNNN op).toNat = op.toNat % 4096 := by
  simp [fieldNNN]

/-! ### Words by format (R71) -/

theorem wordNNN_toNat {f : Nat} (hf : f < 16) (nnn : BitVec 12) :
    (wordNNN f nnn).toNat = f * 4096 + nnn.toNat := by
  have := nnn.isLt
  simp only [wordNNN, BitVec.toNat_ofNat]
  omega

theorem wordXKK_toNat {f kk : Nat} (hf : f < 16) (x : Reg) (hk : kk < 256) :
    (wordXKK f x kk).toNat = f * 4096 + x.val * 256 + kk := by
  have := x.isLt
  simp only [wordXKK, BitVec.toNat_ofNat]
  omega

theorem wordXYN_toNat {f n : Nat} (hf : f < 16) (x y : Reg) (hn : n < 16) :
    (wordXYN f x y n).toNat = f * 4096 + x.val * 256 + y.val * 16 + n := by
  have := x.isLt
  have := y.isLt
  simp only [wordXYN, BitVec.toNat_ofNat]
  omega

/-- The fields of an NNN word. -/
theorem wordNNN_fields {f : Nat} (hf : f < 16) (nnn : BitVec 12) :
    fieldFamily (wordNNN f nnn) = ⟨f, hf⟩ ∧ fieldNNN (wordNNN f nnn) = nnn ∧
      (fieldN (wordNNN f nnn)).val = nnn.toNat % 16 := by
  have := nnn.isLt
  refine ⟨Fin.ext ?_, BitVec.eq_of_toNat_eq ?_, ?_⟩
  · rw [fieldFamily_val, wordNNN_toNat hf]; simp only; omega
  · rw [fieldNNN_toNat, wordNNN_toNat hf]; omega
  · rw [fieldN_val, wordNNN_toNat hf]; omega

/-- The fields of an XKK or XK8 word. -/
theorem wordXKK_fields {f kk : Nat} (hf : f < 16) (x : Reg) (hk : kk < 256) :
    fieldFamily (wordXKK f x kk) = ⟨f, hf⟩ ∧ fieldX (wordXKK f x kk) = x ∧
      fieldKK (wordXKK f x kk) = BitVec.ofNat 8 kk ∧ (fieldN (wordXKK f x kk)).val = kk % 16 := by
  have := x.isLt
  refine ⟨Fin.ext ?_, Fin.ext ?_, BitVec.eq_of_toNat_eq ?_, ?_⟩
  · rw [fieldFamily_val, wordXKK_toNat hf x hk]; simp only; omega
  · rw [fieldX_val, wordXKK_toNat hf x hk]; omega
  · rw [fieldKK_toNat, wordXKK_toNat hf x hk, BitVec.toNat_ofNat]; omega
  · rw [fieldN_val, wordXKK_toNat hf x hk]; omega

/-- The fields of an XYK or XYN word. -/
theorem wordXYN_fields {f n : Nat} (hf : f < 16) (x y : Reg) (hn : n < 16) :
    fieldFamily (wordXYN f x y n) = ⟨f, hf⟩ ∧ fieldX (wordXYN f x y n) = x ∧
      fieldY (wordXYN f x y n) = y ∧ fieldN (wordXYN f x y n) = ⟨n, hn⟩ := by
  have hx := x.isLt
  have hy := y.isLt
  have hw := wordXYN_toNat hf x y hn
  refine ⟨Fin.ext ?_, Fin.ext ?_, Fin.ext ?_, Fin.ext ?_⟩
  · rw [fieldFamily_val, hw]; simp only; omega
  · rw [fieldX_val, hw]; omega
  · rw [fieldY_val, hw]; omega
  · rw [fieldN_val, hw]; simp only; omega

/-! ### Dispatch by family (R74) -/

theorem decode_of_family {op : Word} {f : Fin 16} (h : fieldFamily op = f) : decode op = primary[f] op := by
  subst h
  rfl

/-- The twelve families that select an instruction directly, and the four that dispatch again, one of the sixteen for
each word (R74). -/
theorem decode_cases (op : Word) :
    (fieldFamily op = 0x0 ∧ decode op = .ok (decode0 op)) ∨
    (fieldFamily op = 0x1 ∧ decode op = .ok (.jp (fieldNNN op))) ∨
    (fieldFamily op = 0x2 ∧ decode op = .ok (.call (fieldNNN op))) ∨
    (fieldFamily op = 0x3 ∧ decode op = .ok (.seByte (fieldX op) (fieldKK op))) ∨
    (fieldFamily op = 0x4 ∧ decode op = .ok (.sneByte (fieldX op) (fieldKK op))) ∨
    (fieldFamily op = 0x5 ∧ decode op = .ok (.seReg (fieldX op) (fieldY op))) ∨
    (fieldFamily op = 0x6 ∧ decode op = .ok (.ldByte (fieldX op) (fieldKK op))) ∨
    (fieldFamily op = 0x7 ∧ decode op = .ok (.addByte (fieldX op) (fieldKK op))) ∨
    (fieldFamily op = 0x8 ∧ decode op = decode8 op) ∨
    (fieldFamily op = 0x9 ∧ decode op = .ok (.sneReg (fieldX op) (fieldY op))) ∨
    (fieldFamily op = 0xA ∧ decode op = .ok (.ldI (fieldNNN op))) ∨
    (fieldFamily op = 0xB ∧ decode op = .ok (.jpV0 (fieldNNN op))) ∨
    (fieldFamily op = 0xC ∧ decode op = .ok (.rnd (fieldX op) (fieldKK op))) ∨
    (fieldFamily op = 0xD ∧ decode op = .ok (.drw (fieldX op) (fieldY op) (fieldN op))) ∨
    (fieldFamily op = 0xE ∧ decode op = decodeE op) ∨
    (fieldFamily op = 0xF ∧ decode op = decodeF op) := by
  obtain ⟨f, hf⟩ : ∃ f, fieldFamily op = f := ⟨_, rfl⟩
  have hd := decode_of_family hf
  have hlt := f.isLt
  obtain ⟨n, hn⟩ := f
  interval_cases n <;> simp [hf, hd, primary] <;> rfl

/-! ### Secondary dispatch (R75 to R78) -/

/-- A lookup answers a registered entry, or its key is registered nowhere. -/
theorem lookup_cases {κ α : Type} [BEq κ] [LawfulBEq κ] (table : List (κ × α)) (k : κ) :
    (∃ a, (k, a) ∈ table ∧ table.lookup k = some a) ∨ ((∀ p ∈ table, p.1 ≠ k) ∧ table.lookup k = none) := by
  induction table with
  | nil => exact .inr ⟨by simp, rfl⟩
  | cons p table ih =>
    obtain ⟨k', a'⟩ := p
    by_cases h : k = k'
    · subst h
      exact .inl ⟨a', by simp, by simp [List.lookup]⟩
    · have hl : ((k', a') :: table).lookup k = table.lookup k := by simp [List.lookup, beq_false_of_ne h]
      rw [hl]
      rcases ih with ⟨a, hm, he⟩ | ⟨hn, he⟩
      · exact .inl ⟨a, List.mem_cons_of_mem _ hm, he⟩
      · refine .inr ⟨fun p hp => ?_, he⟩
        rcases List.mem_cons.1 hp with rfl | hp
        · exact fun hk => h hk.symm
        · exact hn p hp

/-- Family 0x8: a registered key's instruction, or a rejection (R76, R81 a). -/
theorem decode8_cases (op : Word) :
    (∃ make, (fieldN op, make) ∈ keys8 ∧ decode8 op = .ok (make (fieldX op) (fieldY op))) ∨
    ((∀ p ∈ keys8, p.1 ≠ fieldN op) ∧ decode8 op = .error .family8Key) := by
  unfold decode8
  rcases lookup_cases keys8 (fieldN op) with ⟨a, hm, he⟩ | ⟨hn, he⟩
  · exact .inl ⟨a, hm, by rw [he]⟩
  · exact .inr ⟨hn, by rw [he]⟩

/-- Family 0xE: a registered key's instruction, or a rejection (R77, R81 b). -/
theorem decodeE_cases (op : Word) :
    (∃ make, (fieldN op, make) ∈ keysE ∧ decodeE op = .ok (make (fieldX op))) ∨
    ((∀ p ∈ keysE, p.1 ≠ fieldN op) ∧ decodeE op = .error .familyEKey) := by
  unfold decodeE
  rcases lookup_cases keysE (fieldN op) with ⟨a, hm, he⟩ | ⟨hn, he⟩
  · exact .inl ⟨a, hm, by rw [he]⟩
  · exact .inr ⟨hn, by rw [he]⟩

/-- Family 0xF: a registered key's instruction, or a rejection (R78, R81 c). -/
theorem decodeF_cases (op : Word) :
    (∃ make, (fieldKK op, make) ∈ keysF ∧ decodeF op = .ok (make (fieldX op))) ∨
    ((∀ p ∈ keysF, p.1 ≠ fieldKK op) ∧ decodeF op = .error .familyFKey) := by
  unfold decodeF
  rcases lookup_cases keysF (fieldKK op) with ⟨a, hm, he⟩ | ⟨hn, he⟩
  · exact .inl ⟨a, hm, by rw [he]⟩
  · exact .inr ⟨hn, by rw [he]⟩

/-- Family 0x0 by its key (R75). -/
theorem decode0_cases (op : Word) :
    (fieldN op = 0x0 ∧ decode0 op = .cls) ∨ (fieldN op = 0xE ∧ decode0 op = .ret) ∨
    (fieldN op ≠ 0x0 ∧ fieldN op ≠ 0xE ∧ decode0 op = .sys (fieldNNN op)) := by
  unfold decode0
  by_cases h0 : fieldN op = 0x0
  · exact .inl ⟨h0, if_pos h0⟩
  · by_cases hE : fieldN op = 0xE
    · exact .inr (.inl ⟨hE, by rw [if_neg h0, if_pos hE]⟩)
    · exact .inr (.inr ⟨h0, hE, by rw [if_neg h0, if_neg hE]⟩)

/-! ### Bytes (R54) -/

/-- The decoder over bytes reads the word of the first two (R54). -/
theorem decodeBytes_cons (hi lo : Byte) (rest : List Byte) :
    decodeBytes (hi :: lo :: rest) = (decode (joinBytes hi lo)).map (·, rest) := by
  simp only [decodeBytes]
  cases decode (joinBytes hi lo) <;> rfl

/-- The joined word in numbers: the first byte is worth 256 (R54). -/
theorem joinBytes_toNat (hi lo : Byte) : (joinBytes hi lo).toNat = 256 * hi.toNat + lo.toNat := by
  unfold joinBytes
  rw [BitVec.toNat_append, Nat.shiftLeft_eq, Nat.mul_comm, ← Nat.two_pow_add_eq_or_of_lt lo.isLt]

/-- A word's two bytes joined are the word. -/
theorem joinBytes_split (w : Word) : joinBytes (w.extractLsb' 8 8) (w.extractLsb' 0 8) = w := by
  apply BitVec.eq_of_getLsbD_eq
  intro i hi
  simp only [joinBytes, BitVec.getLsbD_append, BitVec.getLsbD_extractLsb']
  by_cases h : i < 8
  · simp [h]
  · simp [h, show i - 8 < 8 by omega, show 8 + (i - 8) = i by omega]

end Sys2Proof
end

