-- ==== Sys2Proof/Laws/Draw.lean ====
section
/-! SUPPORT. What a draw leaves, pixel by pixel: one law for a flip, and the closed form of the two loops of R152. -/

namespace Sys2Proof.Machine

/-- A flip changes its own pixel and no other. -/
theorem flipPixel_pixel (v : Video) (cx px : Fin 64) (cy py : Fin 32) :
    pixel (flipPixel v cx cy) px py = (pixel v px py ^^ (decide (px = cx) && decide (py = cy))) := by
  unfold pixel flipPixel
  by_cases hy : py = cy
  · subst hy
    by_cases hx : px = cx
    · subst hx
      simp [pixel]
    · have : cx.val ≠ px.val := fun h => hx (Fin.ext h.symm)
      simp [Vector.getElem_set_ne, this, hx]
  · have : cy.val ≠ py.val := fun h => hy (Fin.ext h.symm)
    simp [Vector.getElem_set_ne, this, hy]

/-- Framebuffers with the same pixels are the same data. -/
theorem video_ext {v w : Video} (h : ∀ px py, pixel v px py = pixel w px py) : v = w := by
  ext i hi j hj
  exact h ⟨j, hj⟩ ⟨i, hi⟩

/-- Whether one of the first `k` columns of a sprite row at `x0` has a 1 bit over column `px`. -/
def rowBit (x0 k : Nat) (b : Byte) (px : Fin 64) : Bool :=
  decide (x0 ≤ px.val) && decide (px.val < x0 + k) && b.getLsbD (7 - (px.val - x0))

/-- What a draw in progress has done to the canvas `c`: the pixels `bits` marks are flipped, and the hit is whether one of
them was set. -/
def Canvas.Drawn (bits : Fin 64 → Fin 32 → Bool) (c d : Canvas) : Prop :=
  (∀ px py, pixel d.video px py = (pixel c.video px py ^^ bits px py)) ∧
  (d.hit = true ↔ c.hit = true ∨ ∃ px py, bits px py = true ∧ pixel c.video px py = true)

theorem Canvas.Drawn.refl (c : Canvas) : Canvas.Drawn (fun _ _ => false) c c := by
  simp [Canvas.Drawn]

/-- Two draws over disjoint sets of pixels are one draw over both. -/
theorem Canvas.Drawn.trans {bits bits' : Fin 64 → Fin 32 → Bool} {c d e : Canvas} (h : Canvas.Drawn bits c d)
    (h' : Canvas.Drawn bits' d e) (hdis : ∀ px py, bits px py = true → bits' px py = false) :
    Canvas.Drawn (fun px py => bits px py || bits' px py) c e := by
  refine ⟨fun px py => ?_, ?_⟩
  · rw [h'.1, h.1]
    have := hdis px py
    cases hb : bits px py <;> simp_all
  · rw [h'.2, h.2]
    constructor
    · rintro ((hc | ⟨px, py, hb, hp⟩) | ⟨px, py, hb, hp⟩)
      · exact .inl hc
      · exact .inr ⟨px, py, by simp [hb], hp⟩
      · refine .inr ⟨px, py, by simp [hb], ?_⟩
        rw [h.1] at hp
        have := hdis px py
        cases hb' : bits px py <;> simp_all
    · rintro (hc | ⟨px, py, hb, hp⟩)
      · exact .inl (.inl hc)
      · cases hb' : bits px py
        · refine .inr ⟨px, py, by simpa [hb'] using hb, ?_⟩
          rw [h.1, hb', hp]; rfl
        · exact .inl (.inr ⟨px, py, hb', hp⟩)

theorem Canvas.Drawn.congr {bits bits' : Fin 64 → Fin 32 → Bool} {c d : Canvas} (h : Canvas.Drawn bits c d)
    (he : ∀ px py, bits px py = bits' px py) : Canvas.Drawn bits' c d := by
  have : bits = bits' := funext fun px => funext fun py => he px py
  exact this ▸ h

/-- One column of a sprite row (R152). -/
theorem Canvas.drawBit_drawn (x0 : Nat) (cy : Fin 32) (b : Byte) (c : Canvas) (col : Nat) :
    Canvas.Drawn (fun px py => decide (px.val = x0 + col) && decide (py = cy) && b.getLsbD (7 - col)) c
      (c.drawBit x0 cy b col) := by
  unfold Canvas.drawBit
  by_cases h : x0 + col < 64
  · by_cases hb : b.getLsbD (7 - col) = true
    · rw [dif_pos h, if_pos hb]
      refine ⟨fun px py => ?_, ?_⟩
      · simp [flipPixel_pixel, hb, Fin.ext_iff]
      · simp only [Bool.or_eq_true, hb, Bool.and_true, Bool.and_eq_true, decide_eq_true_eq]
        constructor
        · rintro (hc | hp)
          · exact .inl hc
          · exact .inr ⟨_, _, ⟨rfl, rfl⟩, hp⟩
        · rintro (hc | ⟨px, py, ⟨hx, rfl⟩, hp⟩)
          · exact .inl hc
          · have : px = ⟨x0 + col, h⟩ := Fin.ext hx
            exact .inr (this ▸ hp)
    · rw [dif_pos h, if_neg hb]
      exact (Canvas.Drawn.refl c).congr fun px py => by simp [hb]
  · rw [dif_neg h]
    refine (Canvas.Drawn.refl c).congr fun px py => ?_
    have : px.val ≠ x0 + col := by have := px.isLt; omega
    simp [this]

/-- The first `k` columns of a sprite row (R152). -/
theorem Canvas.drawCols_drawn (x0 : Nat) (cy : Fin 32) (b : Byte) (c : Canvas) (k : Nat) :
    Canvas.Drawn (fun px py => decide (py = cy) && rowBit x0 k b px) c
      ((List.range k).foldl (Canvas.drawBit x0 cy b) c) := by
  induction k with
  | zero =>
    refine (Canvas.Drawn.refl c).congr fun px py => ?_
    have : ¬ (x0 ≤ px.val ∧ px.val < x0 + 0) := by omega
    simp only [rowBit]
    by_cases h : x0 ≤ px.val
    · simp [show ¬ px.val < x0 by omega]
    · simp [h]
  | succ k ih =>
    rw [List.range_succ, List.foldl_append]
    refine (ih.trans (Canvas.drawBit_drawn x0 cy b _ k) fun px py h => ?_).congr fun px py => ?_
    · simp only [rowBit, Bool.and_eq_true, decide_eq_true_eq] at h
      simp [show px.val ≠ x0 + k by omega]
    · simp only [rowBit]
      by_cases hy : py = cy
      · by_cases hx : px.val = x0 + k
        · simp [hy, hx]
        · by_cases h1 : x0 ≤ px.val
          · by_cases h2 : px.val < x0 + k
            · simp [hy, hx, h1, h2, show px.val < x0 + (k + 1) by omega]
            · simp [hx, h2, show ¬ px.val < x0 + (k + 1) by omega]
          · simp [hx, h1]
      · simp [hy]

/-- A sprite row (R152). -/
theorem Canvas.drawRow_drawn (x0 : Nat) (cy : Fin 32) (b : Byte) (c : Canvas) :
    Canvas.Drawn (fun px py => decide (py = cy) && rowBit x0 8 b px) c (c.drawRow x0 cy b) :=
  Canvas.drawCols_drawn x0 cy b c 8

/-- The whole sprite: the closed form of R152's two loops. -/
theorem Canvas.drawSprite_drawn (x0 y0 n : Nat) (sprite : Nat → Byte) (c : Canvas) :
    Canvas.Drawn
      (fun px py => decide (y0 ≤ py.val) && decide (py.val < y0 + n) && rowBit x0 8 (sprite (py.val - y0)) px) c
      (c.drawSprite x0 y0 n sprite) := by
  unfold Canvas.drawSprite
  induction n with
  | zero =>
    refine (Canvas.Drawn.refl c).congr fun px py => ?_
    by_cases h : y0 ≤ py.val
    · simp [show ¬ py.val < y0 by omega]
    · simp [h]
  | succ n ih =>
    rw [List.range_succ, List.foldl_append, List.foldl_cons, List.foldl_nil]
    by_cases hr : y0 + n < 32
    · rw [dif_pos hr]
      refine (ih.trans (Canvas.drawRow_drawn x0 ⟨y0 + n, hr⟩ (sprite n) _) fun px py h => ?_).congr fun px py => ?_
      · simp only [Bool.and_eq_true, decide_eq_true_eq] at h
        have : py ≠ ⟨y0 + n, hr⟩ := fun he => by have := congrArg Fin.val he; simp only at this; omega
        simp [this]
      · by_cases hy : py.val = y0 + n
        · have : py = ⟨y0 + n, hr⟩ := Fin.ext hy
          simp [this]
        · have hne : py ≠ ⟨y0 + n, hr⟩ := fun he => hy (congrArg Fin.val he)
          have hlt : (py.val < y0 + n) ↔ (py.val < y0 + (n + 1)) := by omega
          simp [hne, hlt]
    · rw [dif_neg hr]
      refine ih.congr fun px py => ?_
      have hpy := py.isLt
      have hlt : (py.val < y0 + n) ↔ (py.val < y0 + (n + 1)) := by omega
      simp only [hlt]

/-- What DRW leaves on the screen, in the sprite's own pixels (R152). -/
theorem State.drawn_spec (s : State) (x y : Reg) (n : Fin 16) :
    Canvas.Drawn (s.spriteBit x y n) ⟨s.video, false⟩ (s.drawn x y n) := by
  refine (Canvas.drawSprite_drawn _ _ _ _ _).congr fun px py => ?_
  simp only [State.spriteBit, rowBit, State.dataAddr]
  ac_rfl

end Sys2Proof.Machine
end

