-- ==== Sys2Proof/Laws/PerInstr.lean ====
section
/-! SUPPORT. The statements made for every instruction, one lemma for each constructor. EncodesInFamily: the canonical
word of an instruction lies in the family of its row of R80 (its first hexadecimal digit). -/

namespace Sys2Proof.Laws.EncodesInFamily

/-- The first digit of the row's canonical encoding (R80). -/
def family : Instr → Nat
  | .sys _ | .cls | .ret => 0x0
  | .jp _ => 0x1
  | .call _ => 0x2
  | .seByte _ _ => 0x3
  | .sneByte _ _ => 0x4
  | .seReg _ _ => 0x5
  | .ldByte _ _ => 0x6
  | .addByte _ _ => 0x7
  | .ldReg _ _ | .orReg _ _ | .andReg _ _ | .xorReg _ _ | .addReg _ _ | .subReg _ _ => 0x8
  | .shr _ _ | .subn _ _ | .shl _ _ => 0x8
  | .sneReg _ _ => 0x9
  | .ldI _ => 0xA
  | .jpV0 _ => 0xB
  | .rnd _ _ => 0xC
  | .drw _ _ _ => 0xD
  | .skp _ | .sknp _ => 0xE
  | .ldVxDT _ | .ldVxK _ | .ldDTVx _ | .ldSTVx _ | .addIVx _ => 0xF
  | .ldFVx _ | .ldBVx _ | .ldMemVx _ | .ldVxMem _ => 0xF

/-- The statement, about the instruction as syntax. -/
def Statement (i : Instr) : Prop := (fieldFamily (encode i)).val = family i

theorem of_nnn {f : Nat} (hf : f < 16) (nnn : BitVec 12) : (fieldFamily (wordNNN f nnn)).val = f :=
  congrArg Fin.val (wordNNN_fields hf nnn).1

theorem of_xkk {f kk : Nat} (hf : f < 16) (x : Reg) (hk : kk < 256) : (fieldFamily (wordXKK f x kk)).val = f :=
  congrArg Fin.val (wordXKK_fields hf x hk).1

theorem of_xyn {f n : Nat} (hf : f < 16) (x y : Reg) (hn : n < 16) : (fieldFamily (wordXYN f x y n)).val = f :=
  congrArg Fin.val (wordXYN_fields hf x y hn).1

theorem sys (nnn : BitVec 12) : Statement (.sys nnn) := of_nnn (by decide) nnn
theorem cls : Statement .cls := rfl
theorem ret : Statement .ret := rfl
theorem jp (nnn : BitVec 12) : Statement (.jp nnn) := of_nnn (by decide) nnn
theorem call (nnn : BitVec 12) : Statement (.call nnn) := of_nnn (by decide) nnn
theorem seByte (x : Reg) (kk : Byte) : Statement (.seByte x kk) := of_xkk (by decide) x kk.isLt
theorem sneByte (x : Reg) (kk : Byte) : Statement (.sneByte x kk) := of_xkk (by decide) x kk.isLt
theorem seReg (x y : Reg) : Statement (.seReg x y) := of_xyn (by decide) x y (by decide)
theorem ldByte (x : Reg) (kk : Byte) : Statement (.ldByte x kk) := of_xkk (by decide) x kk.isLt
theorem addByte (x : Reg) (kk : Byte) : Statement (.addByte x kk) := of_xkk (by decide) x kk.isLt
theorem ldReg (x y : Reg) : Statement (.ldReg x y) := of_xyn (by decide) x y (by decide)
theorem orReg (x y : Reg) : Statement (.orReg x y) := of_xyn (by decide) x y (by decide)
theorem andReg (x y : Reg) : Statement (.andReg x y) := of_xyn (by decide) x y (by decide)
theorem xorReg (x y : Reg) : Statement (.xorReg x y) := of_xyn (by decide) x y (by decide)
theorem addReg (x y : Reg) : Statement (.addReg x y) := of_xyn (by decide) x y (by decide)
theorem subReg (x y : Reg) : Statement (.subReg x y) := of_xyn (by decide) x y (by decide)
theorem shr (x y : Reg) : Statement (.shr x y) := of_xyn (by decide) x y (by decide)
theorem subn (x y : Reg) : Statement (.subn x y) := of_xyn (by decide) x y (by decide)
theorem shl (x y : Reg) : Statement (.shl x y) := of_xyn (by decide) x y (by decide)
theorem sneReg (x y : Reg) : Statement (.sneReg x y) := of_xyn (by decide) x y (by decide)
theorem ldI (nnn : BitVec 12) : Statement (.ldI nnn) := of_nnn (by decide) nnn
theorem jpV0 (nnn : BitVec 12) : Statement (.jpV0 nnn) := of_nnn (by decide) nnn
theorem rnd (x : Reg) (kk : Byte) : Statement (.rnd x kk) := of_xkk (by decide) x kk.isLt
theorem drw (x y : Reg) (n : Fin 16) : Statement (.drw x y n) := of_xyn (by decide) x y n.isLt
theorem skp (x : Reg) : Statement (.skp x) := of_xkk (by decide) x (by decide)
theorem sknp (x : Reg) : Statement (.sknp x) := of_xkk (by decide) x (by decide)
theorem ldVxDT (x : Reg) : Statement (.ldVxDT x) := of_xkk (by decide) x (by decide)
theorem ldVxK (x : Reg) : Statement (.ldVxK x) := of_xkk (by decide) x (by decide)
theorem ldDTVx (x : Reg) : Statement (.ldDTVx x) := of_xkk (by decide) x (by decide)
theorem ldSTVx (x : Reg) : Statement (.ldSTVx x) := of_xkk (by decide) x (by decide)
theorem addIVx (x : Reg) : Statement (.addIVx x) := of_xkk (by decide) x (by decide)
theorem ldFVx (x : Reg) : Statement (.ldFVx x) := of_xkk (by decide) x (by decide)
theorem ldBVx (x : Reg) : Statement (.ldBVx x) := of_xkk (by decide) x (by decide)
theorem ldMemVx (x : Reg) : Statement (.ldMemVx x) := of_xkk (by decide) x (by decide)
theorem ldVxMem (x : Reg) : Statement (.ldVxMem x) := of_xkk (by decide) x (by decide)

end Sys2Proof.Laws.EncodesInFamily
end

