-- ==== Sys2Proof/Tests/Slice0.lean ====
section
/-! SUPPORT. The model's own tests: the well-formedness smoke test, a decoded word for every constructor, single steps
taken from the spec's vectors (spec/95_test_vectors.md, whose numbers each test names), and for every statement with
hypotheses a state and operands that meet them. -/

namespace Sys2Proof.Tests

open Sys2Proof.Machine

/-! ### Well-formedness -/

theorem test_sys_key_cls_is_ill_formed : (Instr.sys 0x120).wf = false := by decide
theorem test_sys_key_ret_is_ill_formed : (Instr.sys 0xABE).wf = false := by decide
theorem test_sys_is_well_formed : (Instr.sys 0x123).wf = true := by decide

/-! ### Decoding: words written out from R80, one for each constructor, and 95_test_vectors.md section 2.1 -/

theorem test_decode_family_0_to_4 :
    decodeTableWord 16 0x0123 = some (.sys 0x123) ∧ decodeTableWord 16 0x00E0 = some .cls ∧
    decodeTableWord 16 0x00EE = some .ret ∧ decodeTableWord 16 0x1200 = some (.jp 0x200) ∧
    decodeTableWord 16 0x2ABC = some (.call 0xABC) ∧ decodeTableWord 16 0x3A5C = some (.seByte 0xA 0x5C) ∧
    decodeTableWord 16 0x4A5C = some (.sneByte 0xA 0x5C) := by decide

theorem test_decode_family_5_to_8 :
    decodeTableWord 16 0x5AB0 = some (.seReg 0xA 0xB) ∧ decodeTableWord 16 0x6105 = some (.ldByte 0x1 0x05) ∧
    decodeTableWord 16 0x7A5C = some (.addByte 0xA 0x5C) ∧ decodeTableWord 16 0x8AB0 = some (.ldReg 0xA 0xB) ∧
    decodeTableWord 16 0x8AB1 = some (.orReg 0xA 0xB) ∧ decodeTableWord 16 0x8AB2 = some (.andReg 0xA 0xB) ∧
    decodeTableWord 16 0x8AB3 = some (.xorReg 0xA 0xB) ∧ decodeTableWord 16 0x8014 = some (.addReg 0x0 0x1) ∧
    decodeTableWord 16 0x8AB5 = some (.subReg 0xA 0xB) ∧ decodeTableWord 16 0x8AB6 = some (.shr 0xA 0xB) ∧
    decodeTableWord 16 0x8AB7 = some (.subn 0xA 0xB) ∧ decodeTableWord 16 0x8ABE = some (.shl 0xA 0xB) := by decide

theorem test_decode_family_9_to_E :
    decodeTableWord 16 0x9AB0 = some (.sneReg 0xA 0xB) ∧ decodeTableWord 16 0xA5CD = some (.ldI 0x5CD) ∧
    decodeTableWord 16 0xB5CD = some (.jpV0 0x5CD) ∧ decodeTableWord 16 0xCA5C = some (.rnd 0xA 0x5C) ∧
    decodeTableWord 16 0xD125 = some (.drw 0x1 0x2 0x5) ∧ decodeTableWord 16 0xEA9E = some (.skp 0xA) ∧
    decodeTableWord 16 0xEAA1 = some (.sknp 0xA) := by decide

theorem test_decode_family_F :
    decodeTableWord 16 0xFA07 = some (.ldVxDT 0xA) ∧ decodeTableWord 16 0xFA0A = some (.ldVxK 0xA) ∧
    decodeTableWord 16 0xFA15 = some (.ldDTVx 0xA) ∧ decodeTableWord 16 0xFA18 = some (.ldSTVx 0xA) ∧
    decodeTableWord 16 0xFA1E = some (.addIVx 0xA) ∧ decodeTableWord 16 0xFA29 = some (.ldFVx 0xA) ∧
    decodeTableWord 16 0xFA33 = some (.ldBVx 0xA) ∧ decodeTableWord 16 0xFA55 = some (.ldMemVx 0xA) ∧
    decodeTableWord 16 0xFA65 = some (.ldVxMem 0xA) := by decide

theorem test_decode_ignored_bits :
    decodeTableWord 16 0x0000 = some .cls ∧ decodeTableWord 16 0x0FF0 = some .cls ∧
    decodeTableWord 16 0x0ABE = some .ret ∧ decodeTableWord 16 0x501F = some (.seReg 0 1) ∧
    decodeTableWord 16 0x912A = some (.sneReg 1 2) ∧ decodeTableWord 16 0xE0FE = some (.skp 0) ∧
    decodeTableWord 16 0xE001 = some (.sknp 0) := by decide

theorem test_decode_illegal :
    ∀ w ∈ [0x8008, 0x8ABF, 0xE000, 0xE09F, 0xE0A2, 0xF000, 0xF0FF, 0xF056, 0xF1E0], decodeTableWord 16 w = none := by
  decide

theorem test_decode_rejects_one_byte : decodeBytes [0x60] = .error .truncated := rfl

/-! ### Steps -/

/-- The launch state with some registers set. -/
def regs (l : List (Reg × Byte)) : State := l.foldl (fun s p => s.setReg p.1 p.2) State.reset

/-- The state with the word `w` placed where the next cycle fetches. -/
def run (s : State) (w : Nat) : Result := step (s.withFetchWord 16 w)

/-- The result is a next state of which `p` holds. -/
def gives (r : Result) (p : State → Bool) : Bool :=
  match r with
  | .next s => p s
  | .fault _ => false
  | .refused _ => false

/-- The state with both toggles set. -/
def quirky (s : State) (shift inc : Bool) : State := s.configure ⟨shift, inc⟩

/-- The key flags with the named keys down. -/
def keys (l : List (Fin 16)) : Keypad := l.foldl (fun k i => k.set i.val true) (Vector.replicate 16 false)

-- T3: the second byte of a fetch at 0xFFF comes from address 0.
theorem test_fetch_wraps : gives (run (State.reset.setPc 0x0FFF) 0x6233)
    (fun t => t.reg 2 == 0x33 && t.pc == 0x1001 && t.opcode == 0x6233) = true := by decide
-- T2: an odd pc is legal.
theorem test_fetch_odd : gives (run (State.reset.setPc 0x0201) 0x6107) (fun t => t.reg 1 == 0x07 && t.pc == 0x0203) = true := by decide
-- T6: launch state, empty ROM.
theorem test_empty_rom_is_cls : gives (step State.reset) (fun t => t.pc == 0x202 && t.report == none) = true := by decide
-- T7.
theorem test_sys : gives (run ((State.reset.setDT 5).setST 1) 0x0123)
    (fun t => t.DT == 4 && t.ST == 0 && t.pc == 0x202 && t.V == State.reset.V) = true := by decide
-- A1, A2.
theorem test_ldByte : gives (run State.reset 0x6F07) (fun t => t.reg 0xF == 0x07) = true := by decide
-- A3.
theorem test_addByte : gives (run (regs [(0, 0xFE)]) 0x7003) (fun t => t.reg 0 == 0x01 && t.reg 0xF == 0) = true := by decide
-- A5.
theorem test_ldReg : gives (run (regs [(1, 0x37)]) 0x8010) (fun t => t.reg 0 == 0x37) = true := by decide
-- A6.
theorem test_orReg : gives (run (regs [(0, 0xF0), (1, 0x0F), (0xF, 1)]) 0x8011)
    (fun t => t.reg 0 == 0xFF && t.reg 0xF == 1) = true := by decide
-- A7.
theorem test_andReg : gives (run (regs [(0, 0xF0), (1, 0x3C)]) 0x8012) (fun t => t.reg 0 == 0x30) = true := by decide
-- A8.
theorem test_xorReg : gives (run (regs [(0, 0xF0), (1, 0x3C)]) 0x8013) (fun t => t.reg 0 == 0xCC) = true := by decide
-- A11.
theorem test_addReg : gives (run (regs [(0, 0xFF), (1, 0x01)]) 0x8014) (fun t => t.reg 0 == 0 && t.reg 0xF == 1) = true := by decide
-- A16: the flag is what remains in VF.
theorem test_addReg_flag_last : gives (run (regs [(0xF, 1), (1, 2)]) 0x8F14) (fun t => t.reg 0xF == 0) = true := by decide
-- A19.
theorem test_subReg : gives (run (regs [(0, 0x05), (1, 0x0A)]) 0x8015) (fun t => t.reg 0 == 0xFB && t.reg 0xF == 0) = true := by decide
-- A20: equal operands do not borrow.
theorem test_subReg_equal : gives (run (regs [(0, 7), (1, 7)]) 0x8015) (fun t => t.reg 0 == 0 && t.reg 0xF == 1) = true := by decide
-- A26, A27.
theorem test_shr_off : gives (run (quirky (regs [(0, 0x05), (1, 0x08)]) false false) 0x8016)
    (fun t => t.reg 0 == 0x02 && t.reg 0xF == 1 && t.reg 1 == 0x08) = true := by decide
theorem test_shr_on : gives (run (quirky (regs [(0, 0x05), (1, 0x08)]) true false) 0x8016)
    (fun t => t.reg 0 == 0x04 && t.reg 0xF == 0 && t.reg 1 == 0x08) = true := by decide
-- A23.
theorem test_subn : gives (run (regs [(0, 0x05), (1, 0x0A)]) 0x8017) (fun t => t.reg 0 == 0x05 && t.reg 0xF == 1) = true := by decide
-- A30, A31.
theorem test_shl_off : gives (run (quirky (regs [(0, 0x81), (1, 0x40)]) false false) 0x801E)
    (fun t => t.reg 0 == 0x02 && t.reg 0xF == 1) = true := by decide
theorem test_shl_on : gives (run (quirky (regs [(0, 0x81), (1, 0x40)]) true false) 0x801E)
    (fun t => t.reg 0 == 0x80 && t.reg 0xF == 0) = true := by decide
-- B1.
theorem test_jp : gives (run State.reset 0x1ABC) (fun t => t.pc == 0x0ABC) = true := by decide
-- B5, B6.
theorem test_call_deepest : gives (run (State.reset.setSp 15) 0x2300)
    (fun t => t.stack[15] == 0x0202 && t.sp == 16 && t.pc == 0x0300 && t.report == none) = true := by decide
theorem test_call_overflow : gives (run (State.reset.setSp 16) 0x2300)
    (fun t => t.report == some (.stackOverflow 0x2300 0x0200) && t.sp == 16 && t.pc == 0x0202) = true := by decide
-- B7, B8.
theorem test_ret : gives (run ((State.reset.setStack 0 0x0ABC).setSp 1) 0x00EE)
    (fun t => t.sp == 0 && t.pc == 0x0ABC && t.stack[0] == 0x0ABC) = true := by decide
theorem test_ret_underflow : gives (run State.reset 0x00EE)
    (fun t => t.report == some (.stackUnderflow 0x00EE 0x0200) && t.sp == 0 && t.pc == 0x0202) = true := by decide
-- B9, B21.
theorem test_seByte : gives (run State.reset 0x3000) (fun t => t.pc == 0x0204) = true := by decide
theorem test_seByte_wraps : gives (run (State.reset.setPc 0xFFFC) 0x3000) (fun t => t.pc == 0x0000) = true := by decide
-- B11.
theorem test_sneByte : gives (run (regs [(0, 1)]) 0x4000) (fun t => t.pc == 0x0204) = true := by decide
-- B14, B15.
theorem test_seReg_unequal : gives (run (regs [(0, 7), (1, 8)]) 0x5010) (fun t => t.pc == 0x0202) = true := by decide
theorem test_seReg_low_bits : gives (run (regs [(0, 7), (1, 7)]) 0x5017) (fun t => t.pc == 0x0204) = true := by decide
-- B16.
theorem test_sneReg : gives (run (regs [(0, 7), (1, 8)]) 0x9010) (fun t => t.pc == 0x0204) = true := by decide
-- B19.
theorem test_jpV0 : gives (run (regs [(0, 0xFF)]) 0xBFFF) (fun t => t.pc == 0x10FE) = true := by decide
-- M2.
theorem test_ldI : gives (run State.reset 0xAFFF) (fun t => t.I == 0x0FFF) = true := by decide
-- M5.
theorem test_addIVx : gives (run ((regs [(0, 2)]).setI 0xFFFF) 0xF01E) (fun t => t.I == 0x0001 && t.reg 0xF == 0) = true := by decide
-- M9.
theorem test_ldFVx : gives (run (regs [(0, 0x1A)]) 0xF029) (fun t => t.I == 0x0082) = true := by decide
-- M12, M14.
theorem test_ldBVx : gives (run ((regs [(0, 0xEA)]).setI 0x0300) 0xF033)
    (fun t => t.memRead 0x300 == 2 && t.memRead 0x301 == 3 && t.memRead 0x302 == 4 && t.I == 0x0300) = true := by decide
theorem test_ldBVx_wraps : gives (run ((regs [(0, 0x64)]).setI 0x0FFF) 0xF033)
    (fun t => t.memRead 0xFFF == 1 && t.memRead 0x000 == 0 && t.memRead 0x001 == 0) = true := by decide
-- M15, M16.
theorem test_ldMemVx_off : gives (run (quirky ((regs [(0, 0xAA), (1, 0xBB)]).setI 0x0400) false false) 0xF155)
    (fun t => t.memRead 0x400 == 0xAA && t.memRead 0x401 == 0xBB && t.memRead 0x402 == 0 && t.I == 0x0400) = true := by decide
theorem test_ldMemVx_on : gives (run (quirky ((regs [(0, 0xAA), (1, 0xBB)]).setI 0x0400) false true) 0xF155)
    (fun t => t.memRead 0x401 == 0xBB && t.I == 0x0402) = true := by decide
-- M20, M21.
theorem test_ldVxMem_on : gives
    (run (quirky ((((State.reset.memWrite 0x300 2).memWrite 0x301 3).memWrite 0x302 4).setI 0x0300) false true) 0xF265)
    (fun t => t.reg 0 == 2 && t.reg 1 == 3 && t.reg 2 == 4 && t.reg 3 == 0 && t.I == 0x0303) = true := by decide
theorem test_ldVxMem_wraps : gives
    (run (quirky (((State.reset.memWrite 0xFFE 5).memWrite 0xFFF 6).setI 0xFFFE) false true) 0xF165)
    (fun t => t.reg 0 == 5 && t.reg 1 == 6 && t.I == 0x0000) = true := by decide
-- D1.
theorem test_cls : gives (run ((regs [(0xF, 1)]).setVideo (flipPixel blankVideo 5 5)) 0x00E0)
    (fun t => t.video == blankVideo && t.reg 0xF == 1) = true := by decide
-- D5: clipping at the right edge.
theorem test_drw_clips : gives (run (((regs [(0, 60)]).memWrite 0x300 0xFF).setI 0x0300) 0xD011)
    (fun t => pixel t.video 60 0 && pixel t.video 63 0 && !pixel t.video 0 0 && !pixel t.video 59 0 && t.reg 0xF == 0) = true := by decide
-- D9: collision; bit 7 is the leftmost pixel.
theorem test_drw_hits : gives
    (run (((State.reset.setVideo (flipPixel (flipPixel blankVideo 0 0) 1 0)).memWrite 0x300 0x60).setI 0x0300) 0xD011)
    (fun t => pixel t.video 0 0 && !pixel t.video 1 0 && pixel t.video 2 0 && t.reg 0xF == 1) = true := by decide
-- K3, K2.
theorem test_skp : gives (run ((regs [(0, 0x17)]).writeKeypad (keys [7])) 0xE09E) (fun t => t.pc == 0x0204) = true := by decide
theorem test_skp_other_key : gives (run ((regs [(0, 7)]).writeKeypad (keys [8])) 0xE09E) (fun t => t.pc == 0x0202) = true := by decide
-- K4.
theorem test_sknp : gives (run (regs [(0, 7)]) 0xE0A1) (fun t => t.pc == 0x0204) = true := by decide
-- K6, K7; the second takes the keys from the host's plan.
theorem test_ldVxK_waits : gives (run ((regs [(3, 0x55)]).setDT 4) 0xF30A)
    (fun t => t.pc == 0x0200 && t.reg 3 == 0x55 && t.DT == 3) = true := by decide
theorem test_ldVxK_least : gives (run (State.reset.planKeypad [keys [9, 7]]) 0xF30A)
    (fun t => t.reg 3 == 7 && t.pc == 0x0202 && t.keypadInputs == []) = true := by decide
-- X1.
theorem test_ldVxDT : gives (run (State.reset.setDT 2) 0xF107) (fun t => t.reg 1 == 2 && t.DT == 1) = true := by decide
-- X3, X5.
theorem test_ldDTVx : gives (run (regs [(0, 3)]) 0xF015) (fun t => t.DT == 2) = true := by decide
theorem test_ldDTVx_one : gives (run (regs [(0, 1)]) 0xF015) (fun t => t.DT == 0) = true := by decide
-- X6.
theorem test_ldSTVx : gives (run (regs [(0, 0xFF)]) 0xF018) (fun t => t.ST == 0xFE && t.DT == 0) = true := by decide
-- One random byte is consumed; its value is free.
theorem test_rnd_consumes : gives (run State.reset 0xC00F) (fun t => t.rndCount == 1 && t.pc == 0x0202) = true := by decide
-- X9: with the immediate 0 the result is 0 whatever the byte.
theorem test_rnd_masked (s t : State) (h : exec (.rnd 0 0x00) s = .next t) : t.reg 0 = 0 := by
  cases h
  simp
-- E1.
theorem test_decode_error : gives (run ((regs [(0, 0x11)]).setDT 3) 0x8008)
    (fun t => t.report == some (.decodeError 0x8008 0x0200) && t.opcode == 0x8008 && t.pc == 0x0202 && t.DT == 2 &&
      t.reg 0 == 0x11) = true := by decide
-- S7: the source's own program, its last instruction, as loaded by the host.
theorem test_launch : (State.launch ⟨true, false⟩ [0x60, 0x0A, 0x61, 0x05, 0x80, 0x14]).map
    (fun s => (s.memRead 0x205, s.pc, s.quirks)) = .ok (0x14, 0x0200, ⟨true, false⟩) := by rfl
-- R58: a byte of the first, the sixth and the last glyph.
theorem test_font : State.reset.memRead 0x050 = 0xF0 ∧ State.reset.memRead 0x06A = 0x80 ∧
    State.reset.memRead 0x09F = 0x80 ∧ State.reset.memRead 0x0A0 = 0 := by decide

/-! ### Witnesses: a state and operands that meet the hypotheses of each statement that has some, at the boundary values
of its clauses -/

theorem gives_next {r : Result} {p : State → Bool} (h : gives r p = true) : ∃ t, r = .next t ∧ p t = true := by
  cases r with
  | next s => exact ⟨s, rfl, h⟩
  | fault _ => cases h
  | refused _ => cases h

theorem steps {s : State} (h : gives (step s) (fun _ => true) = true) : ∃ t, step s = .next t :=
  (gives_next h).imp fun _ ht => ht.1

theorem witness_DecodeOfEncodeIsTheInstruction :
    (Instr.sys 0x001).WellFormed ∧ (Instr.sys 0xFFF).WellFormed ∧ (Instr.drw 15 15 15).WellFormed := by decide

theorem witness_DecodedWordAgreesWithItsEncoding :
    decode 0x0000 = .ok .cls ∧ decode 0x0FFE = .ok .ret ∧ decode 0x5FFF = .ok (.seReg 15 15) ∧
    decode 0xFF65 = .ok (.ldVxMem 15) := ⟨rfl, rfl, rfl, rfl⟩

theorem witness_IgnoredBitsDoNotChangeDecoding :
    decode 0x00E0 = .ok .cls ∧ (0x0120 : Word) &&& examinedMask .cls = 0x00E0 &&& examinedMask .cls :=
  ⟨rfl, by decide⟩

theorem witness_StepRunsTheDecodedInstruction :
    decode (State.reset.withFetchWord 16 0x600A).fetchWord = .ok (.ldByte 0 0x0A) := rfl

theorem witness_PlacedWordIsFetched : Memory.wf State.reset.mem = true := by decide

/-- Also for EveryCycle…, SoundTimer…, Report… and CycleTakes…, whose first hypothesis it is. -/
theorem witness_OpcodeLatchHoldsTheFetchedWord : ∃ t, step State.reset = .next t := steps (by decide)

theorem witness_IllegalWordReportsDecodeError :
    decode (State.reset.withFetchWord 16 0x8008).fetchWord = .error .family8Key ∧
    decode (State.reset.withFetchWord 16 0xE000).fetchWord = .error .familyEKey ∧
    decode (State.reset.withFetchWord 16 0xF0FF).fetchWord = .error .familyFKey := ⟨rfl, rfl, rfl⟩

theorem witness_CycleIsTotal : (State.reset.setSp 16).sp.toNat ≤ 16 ∧ State.reset.sp.toNat ≤ 16 := by decide

theorem witness_RunsFromSoundStatesNeverStop : (State.reset.setSp 16).Inv := by decide

theorem witness_StepKeepsTheInvariant :
    (((State.reset.setSp 15).memWrite 0x200 0x23).memWrite 0x201 0).Inv ∧
    ∃ t, step (((State.reset.setSp 15).memWrite 0x200 0x23).memWrite 0x201 0) = .next t :=
  ⟨by decide, steps (by decide)⟩

theorem witness_EveryCycleTicksBothTimers :
    decode (State.reset.withFetchWord 16 0xF015).fetchWord = .ok (.ldDTVx 0) ∧
    decode (State.reset.withFetchWord 16 0xF018).fetchWord = .ok (.ldSTVx 0) ∧
    (∀ x, decode State.reset.fetchWord ≠ .ok (.ldDTVx x)) ∧ (∀ x, decode State.reset.fetchWord ≠ .ok (.ldSTVx x)) ∧
    (∃ t, step (State.reset.withFetchWord 16 0xF015) = .next t) ∧
    (∃ t, step (State.reset.withFetchWord 16 0xF018) = .next t) := by
  have h : decode State.reset.fetchWord = .ok .cls := rfl
  refine ⟨rfl, rfl, ?_, ?_, steps (by decide), steps (by decide)⟩ <;> intro x <;> rw [h] <;> simp

theorem witness_ReportIsTheOneErrorOfTheCycle :
    (∃ t, step (State.reset.withFetchWord 16 0x8008) = .next t) ∧
    (∃ t, step ((State.reset.setSp 16).withFetchWord 16 0x2300) = .next t) ∧
    decode ((State.reset.setSp 16).withFetchWord 16 0x2300).fetchWord = .ok (.call 0x300) ∧
    (∃ t, step (State.reset.withFetchWord 16 0x00EE) = .next t) ∧
    decode (State.reset.withFetchWord 16 0x00EE).fetchWord = .ok .ret ∧
    (∃ t, step ((State.reset.setSp 15).withFetchWord 16 0x2300) = .next t) ∧
    (State.reset.setSp 15).sp ≠ 16 ∧
    (∃ t, step ((State.reset.setSp 1).withFetchWord 16 0x00EE) = .next t) ∧
    decode ((State.reset.setSp 1).withFetchWord 16 0x00EE).fetchWord = .ok .ret ∧ (State.reset.setSp 1).sp ≠ 0 :=
  ⟨steps (by decide), steps (by decide), rfl, steps (by decide), rfl, steps (by decide), by decide,
    steps (by decide), rfl, by decide⟩

theorem witness_OnlyControlInstructionsWritePc :
    (Instr.drw 1 2 5).writesPc = false ∧ ∃ t, exec (.drw 1 2 5) State.reset = .next t := ⟨rfl, _, rfl⟩

theorem witness_OnlyStoresChangeMemory :
    (Instr.ldVxMem 15).writesMem = false ∧ ∃ t, exec (.ldVxMem 15) State.reset = .next t := ⟨rfl, _, rfl⟩

theorem witness_OnlyCallAndRetMoveTheStack :
    (∀ nnn, Instr.jp 0x200 ≠ .call nnn) ∧ Instr.jp 0x200 ≠ .ret ∧ ∃ t, exec (.jp 0x200) State.reset = .next t :=
  ⟨by simp, by simp, _, rfl⟩

theorem witness_OnlyClsAndDrwChangeTheFramebuffer :
    (Instr.ldI 0x300).writesVideo = false ∧ ∃ t, exec (.ldI 0x300) State.reset = .next t := ⟨rfl, _, rfl⟩

theorem witness_IndexHasOnlyItsWriters :
    (Instr.ldBVx 0).writesIndex = false ∧ (∃ t, exec (.ldBVx 0) State.reset = .next t) ∧
    (quirky State.reset true false).quirks.loadStoreIncI = false ∧
    (∃ t, exec (.ldMemVx 15) (quirky State.reset true false) = .next t) ∧
    ∃ t, exec (.ldVxMem 15) (quirky State.reset true false) = .next t :=
  ⟨rfl, ⟨_, rfl⟩, rfl, ⟨_, rfl⟩, _, rfl⟩

theorem witness_RegistersHaveOnlyTheirWriters :
    1 ∉ (Instr.addReg 0xF 1).destinations ∧ (Instr.addReg 0xF 1).writesFlag = true ∧
    0xF ∉ (Instr.orReg 0 1).destinations ∧ (Instr.orReg 0 1).writesFlag = false ∧
    (∃ t, exec (.addReg 0xF 1) State.reset = .next t) ∧ ∃ t, exec (.orReg 0 1) State.reset = .next t :=
  ⟨by decide, rfl, by decide, rfl, ⟨_, rfl⟩, _, rfl⟩

theorem witness_HandlersLeaveTheirInputs :
    (∃ t, exec (.rnd 0 0xFF) State.reset = .next t) ∧ (∃ t, exec (.ldDTVx 0) State.reset = .next t) ∧
    ∃ t, exec (.ldSTVx 0) State.reset = .next t := ⟨⟨_, rfl⟩, ⟨_, rfl⟩, _, rfl⟩

theorem witness_QuirksReachOnlyFourHandlers :
    (Instr.addReg 0 1).readsQuirks = false ∧ ∃ t, exec (.addReg 0 1) State.reset = .next t := ⟨rfl, _, rfl⟩

theorem witness_KeypadReachesOnlyKeyInstructions :
    (Instr.drw 0 1 15).readsKeypad = false ∧ ∃ t, exec (.drw 0 1 15) State.reset = .next t := ⟨rfl, _, rfl⟩

/-- Register numbers for the inner hypotheses of the arithmetic, shift, key wait, timer and random byte statements. -/
theorem witness_register_results : (0xE : Reg) ≠ 0xF ∧ (0x0 : Reg) ≠ 0xF ∧ (0x1 : Reg) ≠ 0x0 := by decide

theorem witness_ShiftsMoveOneBitIntoTheFlag :
    (0x08 : Nat) = (if (quirky (regs [(1, 8)]) true false).quirks.shiftUsesVy then
      (quirky (regs [(1, 8)]) true false).reg 1 else (quirky (regs [(1, 8)]) true false).reg 0).toNat := by decide

theorem witness_SysIsANoOp :
    (0x001 : BitVec 12).toNat % 16 ≠ 0 ∧ (0xFFF : BitVec 12).toNat % 16 ≠ 0xE ∧
    decode (State.reset.withFetchWord 16 0x0FFF).fetchWord = .ok (.sys 0xFFF) := ⟨by decide, by decide, rfl⟩

theorem witness_JumpLoadsTheTarget :
    (State.reset.withFetchWord 16 0x1200).pc.toNat < 4096 ∧
    (State.reset.withFetchWord 16 0x1200).fetchWord.toNat = 0x1000 + (State.reset.withFetchWord 16 0x1200).pc.toNat := by
  decide

theorem witness_CallPushesTheReturnAddress :
    State.reset.sp.toNat = (0 : Fin 16).val ∧ (State.reset.setSp 15).sp.toNat = (15 : Fin 16).val := by decide

theorem witness_ReturnPopsIntoPc :
    (State.reset.setSp 1).sp.toNat = (0 : Fin 16).val + 1 ∧ (State.reset.setSp 16).sp.toNat = (15 : Fin 16).val + 1 := by
  decide

theorem witness_StackErrorsChangeNothingAndReport : (State.reset.setSp 16).sp = 16 ∧ State.reset.sp = 0 := by decide

theorem witness_StackInstructionsStopOutsideLegalSp :
    16 < (State.reset.setSp 17).sp.toNat ∧ 16 < (State.reset.setSp 255).sp.toNat := by decide

theorem witness_ReturnAnswersCall :
    (State.reset.setSp 15).sp.toNat < 16 ∧
    ∃ t, exec (.call 0x300) (State.reset.setSp 15) = .next t ∧ t.stack = t.stack ∧ t.sp = t.sp :=
  ⟨by decide, _, rfl, rfl, rfl⟩

/-- Also for BlockStore…, ReadAfterWrite… and RomLoad…, whose only hypothesis it is. -/
theorem witness_BcdStoresThreeDigits : Memory.wf (State.reset.memWrite 0xFFF 1).mem = true := by decide

theorem witness_BlockStoreThenLoadRestoresRegisters :
    Memory.wf (quirky State.reset false false).mem = true ∧
    (quirky State.reset false false).quirks.loadStoreIncI = false := by decide

theorem witness_StoreIsSeenByTheNextFetch :
    Memory.wf (State.reset.setI 0xF200).mem = true ∧ 1 ≤ (1 : Reg).val ∧
    (State.reset.setI 0xF200).I.toNat % 4096 = (State.reset.setI 0xF200).pc.toNat % 4096 := by decide

theorem witness_DrawFlipsTheSpritesPixels :
    (State.reset.setI 0x050).spriteBit 0 1 5 3 4 = true ∧ (State.reset.setI 0x050).spriteBit 0 1 5 4 4 = false := by decide

theorem witness_DrawingTwiceRestoresTheScreen :
    ∃ t u : State, exec (.drw 0 1 5) (State.reset.setI 0x050) = .next t ∧
    u.video = t.video ∧ u.mem = (State.reset.setI 0x050).mem ∧ u.I = (State.reset.setI 0x050).I ∧
    (u.reg 0).toNat % 64 = ((State.reset.setI 0x050).reg 0).toNat % 64 ∧
    (u.reg 1).toNat % 32 = ((State.reset.setI 0x050).reg 1).toNat % 32 :=
  ⟨_, (State.reset.setI 0x050).setVideo ((State.reset.setI 0x050).drawn 0 1 5).video, rfl, rfl, rfl, rfl, rfl, rfl⟩

theorem witness_KeySkipsFollowTheSelectedKey :
    ((regs [(0, 0x1F)]).reg 0).toNat % 16 = (15 : Fin 16).val ∧
    ((regs [(0, 0x10)]).reg 0).toNat % 16 = (0 : Fin 16).val := by decide

theorem witness_KeyWaitTakesTheLeastKey :
    (State.reset.writeKeypad (keys [15])).key 15 = true ∧
    (∀ j : Fin 16, j < 15 → (State.reset.writeKeypad (keys [15])).key j = false) ∧
    (State.reset.writeKeypad (keys [0])).key 0 = true := by decide

theorem witness_KeyWaitRewindsWithoutAKey :
    decode (State.reset.withFetchWord 16 0xF30A).fetchWord = .ok (.ldVxK 3) ∧
    ∀ k, (State.reset.withFetchWord 16 0xF30A).fetched.key k = false := ⟨rfl, by decide⟩

theorem witness_RomLoadWritesWhatFits :
    Memory.wf State.reset.mem = true ∧ (0 : Nat) < [(0x12 : Byte), 0x00].length ∧
    0x200 + [(0x12 : Byte), 0x00].length ≤ 0x202 ∧ (List.replicate 0xE01 (0 : Byte)).length > 0xE00 := by
  refine ⟨by decide, by decide, by decide, ?_⟩
  rw [List.length_replicate]
  decide

theorem witness_LaunchIsRefusedWhenTheRomDoesNotFit :
    [(0x12 : Byte), 0x00].length ≤ 0xE00 ∧ (List.replicate 0xE00 (0 : Byte)).length ≤ 0xE00 ∧
    0xE00 < (List.replicate 0xE01 (0 : Byte)).length := by
  simp only [List.length_replicate]
  decide

end Sys2Proof.Tests
end

/-! ## Proofs: the machine's state (10_state.md)

What a handler may write is said once (`Frame`, `exec_frame`), what it may read of the keypad, the toggles and `ST` is
said once (`exec_withInputs`), and the two ways a step gives its next state are said once (`step_next_cases`). Each
statement about the elements of the state follows from these three. -/

namespace Sys2Proof.Machine

/-! ### CALL and RET by the value of `sp` -/

theorem execCall_full {s : State} (nnn : BitVec 12) (h : s.sp = 16) :
    execCall nnn s = .next (s.raiseError .stackOverflow) := if_pos h

theorem execRet_empty {s : State} (h : s.sp = 0) : execRet s = .next (s.raiseError .stackUnderflow) := if_pos h

/-- CALL with a free entry (R122). -/
theorem execCall_push {s : State} (nnn : BitVec 12) {k : Fin 16} (h : s.sp.toNat = k.val) :
    execCall nnn s = .next (((s.setStack k s.pc).setSp (s.sp + 1)).setPc (zextAddr nnn)) := by
  have hk := k.isLt
  rcases execCall_cases nnn s with ⟨h16, -⟩ | ⟨j, hj, he⟩ | ⟨hgt, -⟩
  · simp [h16] at h; omega
  · obtain rfl : j = k := Fin.ext (hj.symm.trans h)
    exact he
  · omega

/-- RET with a return address held (R123). -/
theorem execRet_pop {s : State} {k : Fin 16} (h : s.sp.toNat = k.val + 1) :
    execRet s = .next ((s.setSp (s.sp - 1)).setPc s.stack[k]) := by
  have hk := k.isLt
  rcases execRet_cases s with ⟨h0, -⟩ | ⟨j, hj, -, he⟩ | ⟨hgt, -⟩
  · simp [h0] at h
  · obtain rfl : j = k := Fin.ext (by omega)
    exact he
  · omega

/-- The two ways CALL gives a next state. -/
theorem exec_call_next {nnn : BitVec 12} {s t : State} (h : exec (.call nnn) s = .next t) :
    (s.sp = 16 ∧ t = s.raiseError .stackOverflow) ∨
    ∃ k : Fin 16, s.sp.toNat = k.val ∧ t = ((s.setStack k s.pc).setSp (s.sp + 1)).setPc (zextAddr nnn) := by
  change execCall nnn s = .next t at h
  rcases execCall_cases nnn s with ⟨h16, he⟩ | ⟨k, hk, he⟩ | ⟨-, he⟩ <;> rw [he] at h <;> cases h
  · exact .inl ⟨h16, rfl⟩
  · exact .inr ⟨k, hk, rfl⟩

/-- The two ways RET gives a next state. -/
theorem exec_ret_next {s t : State} (h : exec .ret s = .next t) :
    (s.sp = 0 ∧ t = s.raiseError .stackUnderflow) ∨
    ∃ k : Fin 16, s.sp.toNat = k.val + 1 ∧ t = (s.setSp (s.sp - 1)).setPc s.stack[k] := by
  change execRet s = .next t at h
  rcases execRet_cases s with ⟨h0, he⟩ | ⟨k, hk, -, he⟩ | ⟨-, he⟩ <;> rw [he] at h <;> cases h
  · exact .inl ⟨h0, rfl⟩
  · exact .inr ⟨k, hk, rfl⟩

/-! ### The frame: what each instruction may write -/

/-- `t` differs from `s` in no element of the state but those the instruction `i` is named as a writer of. Every field's
default says that the element is left alone, so that a proof for one handler gives the written elements only. -/
structure Frame (i : Instr) (s t : State) : Prop where
  mem : i.writesMem = false → t.mem = s.mem := by intros; rfl
  reg : ∀ y, y ∉ i.destinations → (y = 0xF → i.writesFlag = false) → t.reg y = s.reg y := by intros; rfl
  I : i.writesIndex = false → t.I = s.I := by intros; rfl
  pc : i.writesPc = false → t.pc = s.pc := by intros; rfl
  stack : (∀ nnn, i ≠ .call nnn) → t.stack = s.stack := by intros; rfl
  sp : (∀ nnn, i ≠ .call nnn) → i ≠ .ret → t.sp = s.sp := by intros; rfl
  DT : (∀ x, i ≠ .ldDTVx x) → t.DT = s.DT := by intros; rfl
  ST : (∀ x, i ≠ .ldSTVx x) → t.ST = s.ST := by intros; rfl
  video : i.writesVideo = false → t.video = s.video := by intros; rfl
  opcode : t.opcode = s.opcode := by intros; rfl
  keypad : t.keypad = s.keypad := by intros; rfl
  keypadInputs : t.keypadInputs = s.keypadInputs := by intros; rfl
  quirks : t.quirks = s.quirks := by intros; rfl
  rndCount : (∀ x kk, i ≠ .rnd x kk) → t.rndCount = s.rndCount := by intros; rfl

section
variable {i : Instr} {s : State}

theorem Frame.of_setReg {x : Reg} {b : Byte} (hx : x ∈ i.destinations) : Frame i s (s.setReg x b) where
  reg y hy _ := by
    rw [State.setReg_reg, if_neg]
    rintro rfl
    exact hy hx

theorem Frame.of_writeWithFlag {x : Reg} {r f : Byte} (hx : x ∈ i.destinations) (hf : i.writesFlag = true) :
    Frame i s (s.writeWithFlag x r f) where
  reg y hy hF := by
    rw [State.writeWithFlag_reg, if_neg, if_neg]
    · rintro rfl
      exact hy hx
    · intro h
      simp [hF h] at hf

theorem Frame.of_skipIf {c : Bool} (hi : i.writesPc = true) : Frame i s (s.skipIf c) := by
  rw [State.skipIf_eq]
  exact { pc := fun h => by simp [hi] at h }

theorem Frame.of_waitKey {x : Reg} (key : Option (Fin 16)) : Frame (.ldVxK x) s (s.waitKey x key) := by
  cases key with
  | none => exact { pc := nofun }
  | some k => exact .of_setReg (by simp [Instr.destinations])

end

/-- DRW writes the framebuffer and VF. -/
theorem Frame.of_drw (x y : Reg) (n : Fin 16) (s : State) (v : Video) (f : Byte) :
    Frame (.drw x y n) s ((s.setVideo v).setVF f) where
  video := nofun
  reg z _ hF := by
    rw [State.setVF_reg, if_neg]
    · rfl
    · intro h
      exact absurd (hF h) nofun

/-- A block store writes memory and `I`. -/
theorem Frame.of_blockStore (x : Reg) (s : State) (a : Nat) (vs : List Byte) (w : Word) :
    Frame (.ldMemVx x) s ((s.memWriteBytes a vs).setI w) := by
  rw [State.memWriteBytes_eq]
  exact { mem := nofun, I := nofun }

/-- A block load writes V0 to Vx and `I`. -/
theorem Frame.of_blockLoad (x : Reg) (s : State) (w : Word) :
    Frame (.ldVxMem x) s (((regsUpTo x).foldl State.loadOne s).setI w) := by
  obtain ⟨hreg, hrest⟩ := s.loads_spec (regsUpTo x)
  have hV : ∀ y, y ∉ (Instr.ldVxMem x).destinations → ((regsUpTo x).foldl State.loadOne s).reg y = s.reg y := by
    intro y hy
    rw [hreg, if_neg]
    simpa [mem_regsUpTo, Instr.destinations] using hy
  rw [hrest] at hV ⊢
  exact { reg := fun y hy _ => hV y hy, I := nofun }

/-- No handler writes an element it is not named as a writer of (R21 to R31). -/
theorem exec_frame {i : Instr} {s t : State} (h : exec i s = .next t) : Frame i s t := by
  cases i with
  | call nnn =>
    obtain ⟨-, rfl⟩ | ⟨k, -, rfl⟩ := exec_call_next h
    · exact {}
    · exact { pc := nofun, stack := fun hi => absurd rfl (hi nnn), sp := fun hi => absurd rfl (hi nnn) }
  | ret =>
    obtain ⟨-, rfl⟩ | ⟨k, -, rfl⟩ := exec_ret_next h
    · exact {}
    · exact { pc := nofun, sp := fun _ hi => absurd rfl hi }
  | sys nnn => cases h; exact {}
  | cls => cases h; exact { video := nofun }
  | jp nnn | jpV0 nnn => cases h; exact { pc := nofun }
  | ldI nnn | addIVx x | ldFVx x => cases h; exact { I := nofun }
  | seByte x kk | sneByte x kk | seReg x y | sneReg x y | skp x | sknp x => cases h; exact .of_skipIf rfl
  | ldByte x kk | addByte x kk | ldReg x y | orReg x y | andReg x y | xorReg x y | ldVxDT x =>
    cases h; exact .of_setReg (List.mem_singleton_self x)
  | addReg x y | subReg x y | shr x y | subn x y | shl x y =>
    cases h; exact .of_writeWithFlag (List.mem_singleton_self x) rfl
  | rnd x kk =>
    cases h
    exact { reg := (Frame.of_setReg (s := s.consumeRnd) (List.mem_singleton_self x)).reg
            rndCount := fun hi => absurd rfl (hi x kk) }
  | drw x y n => cases h; exact .of_drw x y n s _ _
  | ldVxK x => cases h; exact .of_waitKey _
  | ldDTVx x => cases h; exact { DT := fun hi => absurd rfl (hi x) }
  | ldSTVx x => cases h; exact { ST := fun hi => absurd rfl (hi x) }
  | ldBVx x =>
    cases h
    rw [State.memWriteBytes_eq]
    exact { mem := nofun }
  | ldMemVx x => cases h; exact .of_blockStore x s _ _ _
  | ldVxMem x => cases h; exact .of_blockLoad x s _

/-! ### What a handler does with the elements it writes -/

/-- A flag is 0 or 1 (R23). -/
theorem flagByte_eq (f : Bool) : flagByte f = 0 ∨ flagByte f = 1 := by
  cases f
  · exact .inl rfl
  · exact .inr rfl

/-- The six instructions with a flag leave it in VF, whatever their destination (R100, R101). -/
theorem exec_flag {i : Instr} {s t : State} (hf : i.writesFlag = true) (h : exec i s = .next t) :
    ∃ f, t.reg 0xF = flagByte f := by
  cases i with
  | addReg x y | subReg x y | shr x y | subn x y | shl x y =>
    cases h
    rw [State.writeWithFlag_reg, if_pos rfl]
    exact ⟨_, rfl⟩
  | drw x y n =>
    cases h
    rw [State.setVF_reg, if_pos rfl]
    exact ⟨_, rfl⟩
  | _ => cases hf

/-- A block transfer leaves `I` when the toggle is off (R144). -/
theorem State.indexAfterBlock_off {s : State} (x : Reg) (h : s.quirks.loadStoreIncI = false) :
    s.indexAfterBlock x = s.I := by
  simp [State.indexAfterBlock, h]

theorem exec_keeps_wf {i : Instr} {s t : State} (hs : Memory.wf s.mem = true) (h : exec i s = .next t) :
    Memory.wf t.mem = true := by
  cases i with
  | ldBVx x => cases h; exact State.memWriteBytes_wf hs _ _
  | ldMemVx x => cases h; exact State.memWriteBytes_wf hs _ _
  | _ => rw [(exec_frame h).mem rfl]; exact hs

theorem exec_keeps_sp_le {i : Instr} {s t : State} (hs : s.sp.toNat ≤ 16) (h : exec i s = .next t) :
    t.sp.toNat ≤ 16 := by
  cases i with
  | call nnn =>
    obtain ⟨-, rfl⟩ | ⟨k, hk, rfl⟩ := exec_call_next h
    · exact hs
    · have : (s.sp + 1).toNat ≤ 16 := by bv_omega
      exact this
  | ret =>
    obtain ⟨-, rfl⟩ | ⟨k, hk, rfl⟩ := exec_ret_next h
    · exact hs
    · have : (s.sp - 1).toNat ≤ 16 := by bv_omega
      exact this
  | _ => rw [(exec_frame h).sp nofun nofun]; exact hs

/-- Every handler keeps the invariant (R25, R51). -/
theorem exec_keeps_inv {i : Instr} {s t : State} (hs : s.Inv) (h : exec i s = .next t) : t.Inv :=
  ⟨exec_keeps_wf hs.1 h, exec_keeps_sp_le hs.2 h⟩

/-! ### What a handler may read of the keypad, the toggles and `ST` -/

/-- `s` with another keypad, other toggles and another `ST`. -/
def State.withInputs (s : State) (k : Keypad) (q : Quirks) (v : Byte) : State :=
  { s with keypad := k, quirks := q, ST := v }

section
variable (k : Keypad) (q : Quirks) (v : Byte)

theorem State.skipIf_withInputs (s : State) (c : Bool) :
    (s.withInputs k q v).skipIf c = (s.skipIf c).withInputs k q v := by
  cases c <;> rfl

theorem State.memWriteBytes_withInputs (s : State) (a : Nat) (vs : List Byte) :
    (s.withInputs k q v).memWriteBytes a vs = (s.memWriteBytes a vs).withInputs k q v := by
  induction vs generalizing s a with
  | nil => rfl
  | cons b vs ih => exact ih (s.memWrite a b) (a + 1)

theorem State.loads_withInputs (s : State) (l : List Reg) :
    l.foldl State.loadOne (s.withInputs k q v) = (l.foldl State.loadOne s).withInputs k q v := by
  induction l generalizing s with
  | nil => rfl
  | cons r l ih => exact ih (s.loadOne r)

theorem State.waitKey_withInputs (s : State) (x : Reg) (key : Option (Fin 16)) :
    (s.withInputs k q v).waitKey x key = (s.waitKey x key).withInputs k q v := by
  cases key <;> rfl

end

/-- Two runs of a handler, on states that may differ in the keypad if it reads no key, in the toggles if it reads no
toggle, and in `ST` in any case, end in states that differ in nothing else; `ST` differs afterwards only if it did
before (R27, R30, R83). -/
theorem exec_withInputs {i : Instr} {s t : State} {k : Keypad} {q : Quirks} (v : Byte)
    (hk : i.readsKeypad = true → k = s.keypad) (hq : i.readsQuirks = true → q = s.quirks) (h : exec i s = .next t) :
    ∃ w, exec i (s.withInputs k q v) = .next (t.withInputs k q w) ∧ (v = s.ST → w = t.ST) := by
  by_cases hst : ∃ x, i = .ldSTVx x
  · obtain ⟨x, rfl⟩ := hst
    cases h
    exact ⟨s.reg x, rfl, fun _ => rfl⟩
  refine ⟨v, ?_, fun hv => hv.trans ((exec_frame h).ST fun x hx => hst ⟨x, hx⟩).symm⟩
  cases i with
  | ldSTVx x => exact absurd ⟨x, rfl⟩ hst
  | call nnn =>
    obtain ⟨h16, rfl⟩ | ⟨j, hj, rfl⟩ := exec_call_next h
    · exact execCall_full nnn h16
    · exact execCall_push nnn hj
  | ret =>
    obtain ⟨h0, rfl⟩ | ⟨j, hj, rfl⟩ := exec_ret_next h
    · exact execRet_empty h0
    · exact execRet_pop (s := s.withInputs k q v) hj
  | seByte x kk | sneByte x kk | seReg x y | sneReg x y =>
    cases h; exact congrArg _ (State.skipIf_withInputs k q v s _)
  | skp x | sknp x =>
    obtain rfl := hk rfl
    cases h; exact congrArg _ (State.skipIf_withInputs _ q v s _)
  | ldVxK x =>
    obtain rfl := hk rfl
    cases h; exact congrArg _ (State.waitKey_withInputs _ q v s x _)
  | shr x y | shl x y =>
    obtain rfl := hq rfl
    cases h; rfl
  | ldBVx x => cases h; exact congrArg _ (State.memWriteBytes_withInputs k q v s _ _)
  | ldMemVx x =>
    obtain rfl := hq rfl
    cases h
    exact congrArg (fun u => Host.Outcome.next (u.setI (s.indexAfterBlock x)))
      (State.memWriteBytes_withInputs k _ v s _ _)
  | ldVxMem x =>
    obtain rfl := hq rfl
    cases h
    exact congrArg (fun u => Host.Outcome.next (u.setI (s.indexAfterBlock x)))
      (State.loads_withInputs k _ v s _)
  | _ => cases h; rfl

/-! ### The step -/

/-- A step depends on the fetched state alone. -/
theorem step_eq_of_fetched_eq {s s' : State} (h : s.fetched = s'.fetched) : step s = step s' := by
  rw [← State.beginCycle_eq, ← State.beginCycle_eq] at h
  exact congrArg (fun u => tickResult u.execute) h

theorem step_of_decode {s : State} {i : Instr} (h : decode s.fetchWord = .ok i) :
    step s = tickResult (exec i s.fetched) := by
  obtain ⟨j, hj, hs⟩ | ⟨r, hr, -⟩ := step_cases s
  · rw [h] at hj
    cases hj
    exact hs
  · rw [h] at hr
    cases hr

theorem step_of_reject {s : State} {r : DecodeReject} (h : decode s.fetchWord = .error r) :
    step s = .next (s.fetched.raiseError .decodeError).tick := by
  obtain ⟨j, hj, -⟩ | ⟨-, -, hs⟩ := step_cases s
  · rw [h] at hj
    cases hj
  · exact hs

/-- The two ways a step gives its next state: the handler's next state with its timers ticked, or the fetched state with
DecodeError and its timers ticked. -/
theorem step_next_cases {s t : State} (h : step s = .next t) :
    (∃ i u, decode s.fetchWord = .ok i ∧ exec i s.fetched = .next u ∧ t = u.tick) ∨
    (∃ r, decode s.fetchWord = .error r ∧ t = (s.fetched.raiseError .decodeError).tick) := by
  obtain ⟨i, hi, hs⟩ | ⟨r, hr, hs⟩ := step_cases s <;> rw [hs] at h
  · cases hx : exec i s.fetched <;> rw [hx] at h <;> cases h
    exact .inl ⟨i, _, hi, hx, rfl⟩
  · cases h
    exact .inr ⟨r, hr, rfl⟩

/-- What every cycle does with the elements no handler writes: the word fetched stays in the latch, and the keypad is
the host's next pattern. -/
theorem step_inputs {s t : State} (h : step s = .next t) :
    t.opcode = s.fetchWord ∧ t.keypad = s.keypadInputs.headD s.keypad ∧ t.keypadInputs = s.keypadInputs.tail := by
  obtain ⟨i, u, -, hx, rfl⟩ | ⟨r, -, rfl⟩ := step_next_cases h
  · have f := exec_frame hx
    exact ⟨f.opcode, f.keypad, f.keypadInputs⟩
  · exact ⟨rfl, rfl, rfl⟩

theorem tickTimer_toNat (b : Byte) : (tickTimer b).toNat = b.toNat - 1 := by
  have := b.isLt
  rw [tickTimer_eq, BitVec.toNat_ofNat]
  omega

/-! ### The statements about the state -/

/-- Settles O12: the fetch and the tick touch neither memory nor `sp`, and every handler keeps the invariant. -/
theorem stepKeepsTheInvariant : Obligations.StepKeepsTheInvariant := by
  intro s t hs h
  obtain ⟨i, u, -, hx, rfl⟩ | ⟨r, -, rfl⟩ := step_next_cases h
  · have hu : u.Inv := exec_keeps_inv (s := s.fetched) hs hx
    exact hu
  · exact hs

/-- Settles O8: no handler writes the latch, and the fetched state does not depend on the old one. -/
theorem opcodeLatchHoldsTheFetchedWord : Obligations.OpcodeLatchHoldsTheFetchedWord := by
  refine ⟨fun s t h => ?_, fun s w => step_eq_of_fetched_eq rfl⟩
  rw [(step_inputs h).1]
  exact joinBytes_toNat _ _

/-- Settles O15: a timer has one writer, and the tick follows every handler and every DecodeError. -/
theorem everyCycleTicksBothTimers : Obligations.EveryCycleTicksBothTimers := by
  intro s t h
  obtain ⟨i, u, hd, hx, rfl⟩ | ⟨r, hd, rfl⟩ := step_next_cases h
  · have f := exec_frame hx
    simp only [hd, Except.ok.injEq, ne_eq, State.tick_DT, State.tick_ST, tickTimer_toNat]
    refine ⟨?_, fun hi => by rw [f.DT hi], ?_, fun hi => by rw [f.ST hi]⟩
    · rintro x rfl
      cases hx
      rfl
    · rintro x rfl
      cases hx
      rfl
  · simp [hd, tickTimer_toNat]

/-- Settles O16: the two fetched states differ in `ST` alone, no handler reads it, and the tick reads it for itself. -/
theorem soundTimerIsObservedByNothing : Obligations.SoundTimerIsObservedByNothing := by
  intro s t v h
  obtain ⟨i, u, hd, hx, rfl⟩ | ⟨r, hd, rfl⟩ := step_next_cases h
  · obtain ⟨w, hw, -⟩ := exec_withInputs v (fun _ => rfl) (fun _ => rfl) hx
    have f := exec_frame hx
    have hu : u.withInputs s.fetched.keypad s.fetched.quirks w = { u with ST := w } := by
      rw [← f.keypad, ← f.quirks]; rfl
    rw [hu] at hw
    exact ⟨_, (step_of_decode (s := { s with ST := v }) hd).trans (congrArg tickResult hw), rfl⟩
  · exact ⟨_, step_of_reject hd, rfl⟩

/-- Settles O18: the cycle's only write of the keypad is the one before the fetch. -/
theorem cycleTakesTheHostsKeypad : Obligations.CycleTakesTheHostsKeypad :=
  fun _ _ h => (step_inputs h).2

/-- Settles O19, by the frame of `pc`. -/
theorem onlyControlInstructionsWritePc : Obligations.OnlyControlInstructionsWritePc :=
  fun _ _ _ hi h => (exec_frame h).pc hi

/-- Settles O21, by the frames of `stack` and `sp`. -/
theorem onlyCallAndRetMoveTheStack : Obligations.OnlyCallAndRetMoveTheStack :=
  fun _ _ _ h => ⟨(exec_frame h).stack, (exec_frame h).sp⟩

/-- Settles O22, by the frame of `video`. -/
theorem onlyClsAndDrwChangeTheFramebuffer : Obligations.OnlyClsAndDrwChangeTheFramebuffer :=
  fun _ _ _ hi h => (exec_frame h).video hi

/-- Settles O23: with the toggle off the block transfers write `I` back as it was. -/
theorem indexHasOnlyItsWriters : Obligations.IndexHasOnlyItsWriters := by
  refine fun i s t h => ⟨(exec_frame h).I, fun x hi hq => ?_⟩
  obtain rfl | rfl := hi <;> cases h <;> exact State.indexAfterBlock_off x hq

/-- Settles O24, by the frame of `V`; the flag is written last, so that it is what VF holds. -/
theorem registersHaveOnlyTheirWriters : Obligations.RegistersHaveOnlyTheirWriters := by
  refine fun i s t h => ⟨(exec_frame h).reg, fun hf => ?_⟩
  obtain ⟨f, he⟩ := exec_flag hf h
  rw [he]
  exact flagByte_eq f

/-- Settles O25, by the frames of the elements it names. -/
theorem handlersLeaveTheirInputs : Obligations.HandlersLeaveTheirInputs := by
  intro i s t h
  have f := exec_frame h
  refine ⟨f.opcode, f.keypad, f.keypadInputs, f.quirks, f.DT, f.ST, ?_, f.rndCount⟩
  rintro ⟨x, kk, rfl⟩
  cases h
  rfl

/-- Settles O27: the run with the other keypad and the same toggles and `ST`. -/
theorem keypadReachesOnlyKeyInstructions : Obligations.KeypadReachesOnlyKeyInstructions := by
  intro i s t k hi h
  obtain ⟨w, hw, hST⟩ := exec_withInputs s.ST (fun hr => by simp [hi] at hr) (fun _ => rfl) h
  have ht : t.withInputs k s.quirks w = { t with keypad := k } := by
    rw [← (exec_frame h).quirks, hST rfl]; rfl
  rw [ht] at hw
  exact hw

/-- Settles O13: after `init` memory lists no byte and `sp` is 0. -/
theorem resetMeetsTheInvariant : Obligations.ResetMeetsTheInvariant := ⟨rfl, Nat.zero_le 16⟩

/-- Memory after `init` lists nothing, so that every byte is `resetByte`'s (R35). -/
theorem reset_memRead {a : Nat} (ha : a < 4096) : State.reset.memRead a = resetByte a :=
  congrArg resetByte (Nat.mod_eq_of_lt ha)

/-- Outside the font table `init` leaves zero (R35, R57). -/
theorem resetByte_off_font {a : Nat} (h : a < 0x050 ∨ 0x0A0 ≤ a) : resetByte a = 0 :=
  if_neg fun hf => by simp only [Config.fontBase, Config.fontSize] at hf; omega

/-- Settles O14, the font's 80 bytes by evaluation and the zeros around it for every address. -/
theorem resetIsTheInitTable : Obligations.ResetIsTheInitTable := by
  refine ⟨rfl, by decide, rfl, rfl, by decide, rfl, rfl, rfl, ?_, by decide, ?_, by decide, ?_⟩
  · intro px py
    simp [pixel, State.reset]
  · intro a ha
    rw [reset_memRead (by omega), resetByte_off_font (.inl ha)]
  · intro a ha ha'
    rw [reset_memRead ha', resetByte_off_font (.inr ha)]

/-- Settles O40: of the three ways CALL and RET go, only the stop has `sp` above 16. -/
theorem stackInstructionsStopOutsideLegalSp : Obligations.StackInstructionsStopOutsideLegalSp := by
  intro s hs
  constructor
  · intro nnn
    rcases execCall_cases nnn s with ⟨h16, -⟩ | ⟨k, hk, -⟩ | ⟨-, he⟩
    · simp [h16] at hs
    · omega
    · exact he
  · rcases execRet_cases s with ⟨h0, -⟩ | ⟨k, hk, -⟩ | ⟨-, he⟩
    · simp [h0] at hs
    · omega
    · exact he

end Sys2Proof.Machine

/-! ## Proofs: main memory (20_memory.md)

Memory is plain storage (`State.memWrite_memRead`), and the fetch reads it like any other access
(`State.memWriteBytes_memReadWord`). -/

namespace Sys2Proof.Machine

/-! ### A word read from memory -/

/-- A byte read depends on memory alone (R52). -/
theorem State.memRead_congr {s t : State} (h : t.mem = s.mem) (a : Nat) : t.memRead a = s.memRead a :=
  congrArg (Memory.read · (wrapAddr a)) h

/-- Addresses that agree modulo 4096 name the same word, also where it wraps past 0xFFF (R54). -/
theorem State.memReadWord_mod (s : State) {a b : Nat} (h : a % 4096 = b % 4096) :
    s.memReadWord a = s.memReadWord b :=
  congrArg₂ joinBytes (s.memRead_mod h) (s.memRead_mod (Nat.ModEq.add_right 1 h))

@[simp] theorem State.setI_memReadWord (s : State) (w : Word) (a : Nat) :
    (s.setI w).memReadWord a = s.memReadWord a := rfl

/-- After two or more bytes are stored from `a` upward, the word at `a` is the first two of them (R54, R55). -/
theorem State.memWriteBytes_memReadWord {s : State} (h : Memory.wf s.mem = true) (a : Nat) (vs : List Byte)
    (hl : vs.length ≤ 4096) (h2 : 2 ≤ vs.length) :
    (s.memWriteBytes a vs).memReadWord a = joinBytes vs[0] vs[1] :=
  congrArg₂ joinBytes (State.memWriteBytes_memRead_at h a vs hl 0 (by omega))
    (State.memWriteBytes_memRead_at h a vs hl 1 (by omega))

/-! ### The statements about memory -/

/-- Settles O20, by the frame of `mem`. -/
theorem onlyStoresChangeMemory : Obligations.OnlyStoresChangeMemory := by
  intro i s t hi h
  have hmem := (exec_frame h).mem hi
  exact ⟨hmem, State.memRead_congr hmem⟩

/-- Settles O48: read after write, each address reduced modulo 4096. -/
theorem readAfterWriteReturnsTheByte : Obligations.ReadAfterWriteReturnsTheByte :=
  fun _ a b v hs => State.memWrite_memRead hs a v b

/-- Settles O49: a block of two registers or more stores V0 and V1 as the two bytes at `pc`, and neither the stores nor
the new `I` move `pc`. -/
theorem storeIsSeenByTheNextFetch : Obligations.StoreIsSeenByTheNextFetch := by
  intro x s hs hx hpc
  refine ⟨_, rfl, ?_⟩
  have hlen : ((regsUpTo x).map s.reg).length = x.val + 1 := by rw [List.length_map, regsUpTo_length]
  rw [State.fetchWord, State.setI_pc, State.memWriteBytes_pc,
    ← State.memReadWord_mod _ (show s.dataAddr 0 % 4096 = s.pc.toNat % 4096 from hpc),
    State.setI_memReadWord, State.memWriteBytes_memReadWord hs _ _ (by omega) (by omega), joinBytes_toNat]
  simp only [List.getElem_map, regsUpTo_getElem]
  rfl

/-- Settles O7: the two bytes of the word are stored at `pc` and joined again by the fetch. -/
theorem placedWordIsFetched : Obligations.PlacedWordIsFetched := by
  intro s w hs
  have hw : BitVec.ofNat 16 (w.toNat % 2 ^ 16) = w := by
    rw [Nat.mod_eq_of_lt w.isLt, BitVec.ofNat_toNat, BitVec.setWidth_eq]
  have hlen : (splitWord w).length = 2 := rfl
  rw [State.withFetchWord, hw, State.fetchWord, State.memWriteBytes_pc,
    State.memWriteBytes_memReadWord hs _ _ (by omega) (by omega)]
  exact joinBytes_split w

end Sys2Proof.Machine

/-! ## Proofs: the encoding (30_encoding.md)

`decode_eq_ok_iff` says in one line what decoding is: a word decodes to an instruction exactly when the instruction is
well formed and the word agrees with its canonical word on the examined bits. The three statements about decode and
encode are read off it. Its two directions go through the fields of a word: for each format of R71, agreeing with a
canonical word is having its fields. -/

namespace Sys2Proof

/-! ### A word is its four hexadecimal digits (R72) -/

theorem toNat_eq_digits (op : Word) :
    op.toNat = (fieldFamily op).val * 4096 + (fieldX op).val * 256 + (fieldY op).val * 16 + (fieldN op).val := by
  rw [fieldFamily_val, fieldX_val, fieldY_val, fieldN_val]
  omega

theorem word_eq_iff_digits (w v : Word) :
    w = v ↔ fieldFamily w = fieldFamily v ∧ fieldX w = fieldX v ∧ fieldY w = fieldY v ∧ fieldN w = fieldN v := by
  refine ⟨fun h => by simp [h], fun ⟨hf, hx, hy, hn⟩ => BitVec.eq_of_toNat_eq ?_⟩
  rw [toNat_eq_digits w, toNat_eq_digits v, hf, hx, hy, hn]

/-- Masking a word masks each of its digits. -/
theorem fields_and (w m : Word) :
    fieldFamily (w &&& m) = fieldFamily w &&& fieldFamily m ∧ fieldX (w &&& m) = fieldX w &&& fieldX m ∧
      fieldY (w &&& m) = fieldY w &&& fieldY m ∧ fieldN (w &&& m) = fieldN w &&& fieldN m := by
  simp [fieldFamily, fieldX, fieldY, fieldN, BitVec.extractLsb'_and]

/-- Words agree on a mask when their digits agree on the mask's digits. -/
theorem and_eq_and_iff_digits (w v m : Word) :
    w &&& m = v &&& m ↔
      fieldFamily w &&& fieldFamily m = fieldFamily v &&& fieldFamily m ∧
        fieldX w &&& fieldX m = fieldX v &&& fieldX m ∧
        fieldY w &&& fieldY m = fieldY v &&& fieldY m ∧ fieldN w &&& fieldN m = fieldN v &&& fieldN m := by
  obtain ⟨wf, wx, wy, wn⟩ := fields_and w m
  obtain ⟨vf, vx, vy, vn⟩ := fields_and v m
  rw [word_eq_iff_digits, wf, wx, wy, wn, vf, vx, vy, vn]

theorem digit_and_fifteen : ∀ d : Fin 16, d &&& 15 = d := by decide

theorem digit_and_zero : ∀ d : Fin 16, d &&& 0 = 0 := by decide

/-! ### The examined bits, mask by mask (R79) -/

/-- CLS and RET examine the family and the key. -/
theorem and_F00F_eq_iff (w v : Word) :
    w &&& 0xF00F = v &&& 0xF00F ↔ fieldFamily w = fieldFamily v ∧ fieldN w = fieldN v := by
  rw [and_eq_and_iff_digits, show fieldFamily 0xF00F = 15 from rfl, show fieldX 0xF00F = 0 from rfl,
    show fieldY 0xF00F = 0 from rfl, show fieldN 0xF00F = 15 from rfl]
  simp [digit_and_fifteen, digit_and_zero]

/-- SE Vx, Vy and SNE Vx, Vy examine all but the low digit. -/
theorem and_FFF0_eq_iff (w v : Word) :
    w &&& 0xFFF0 = v &&& 0xFFF0 ↔ fieldFamily w = fieldFamily v ∧ fieldX w = fieldX v ∧ fieldY w = fieldY v := by
  rw [and_eq_and_iff_digits, show fieldFamily 0xFFF0 = 15 from rfl, show fieldX 0xFFF0 = 15 from rfl,
    show fieldY 0xFFF0 = 15 from rfl, show fieldN 0xFFF0 = 0 from rfl]
  simp [digit_and_fifteen, digit_and_zero]

/-- SKP and SKNP examine all but the second digit from the right. -/
theorem and_FF0F_eq_iff (w v : Word) :
    w &&& 0xFF0F = v &&& 0xFF0F ↔ fieldFamily w = fieldFamily v ∧ fieldX w = fieldX v ∧ fieldN w = fieldN v := by
  rw [and_eq_and_iff_digits, show fieldFamily 0xFF0F = 15 from rfl, show fieldX 0xFF0F = 15 from rfl,
    show fieldY 0xFF0F = 0 from rfl, show fieldN 0xFF0F = 15 from rfl]
  simp [digit_and_fifteen, digit_and_zero]

/-- The other instructions examine every bit. -/
theorem and_FFFF_eq_iff (w v : Word) : w &&& 0xFFFF = v &&& 0xFFFF ↔ w = v := by
  rw [and_eq_and_iff_digits, show fieldFamily 0xFFFF = 15 from rfl, show fieldX 0xFFFF = 15 from rfl,
    show fieldY 0xFFFF = 15 from rfl, show fieldN 0xFFFF = 15 from rfl, word_eq_iff_digits]
  simp only [digit_and_fifteen]

/-! ### Agreeing with a canonical word, format by format (R71) -/

section
variable {w : Word} {f : Nat} (hf : f < 16)

theorem agrees_nnn_iff (nnn : BitVec 12) :
    w &&& 0xFFFF = wordNNN f nnn &&& 0xFFFF ↔ fieldFamily w = ⟨f, hf⟩ ∧ fieldNNN w = nnn := by
  rw [and_FFFF_eq_iff]
  constructor
  · rintro rfl
    obtain ⟨h, hn, -⟩ := wordNNN_fields hf nnn
    exact ⟨h, hn⟩
  · rintro ⟨h, rfl⟩
    have hw : w.toNat / 4096 = f := by rw [← fieldFamily_val, h]
    apply BitVec.eq_of_toNat_eq
    rw [wordNNN_toNat hf, fieldNNN_toNat]
    omega

theorem agrees_xkk_iff (x : Reg) (kk : Byte) :
    w &&& 0xFFFF = wordXKK f x kk.toNat &&& 0xFFFF ↔ fieldFamily w = ⟨f, hf⟩ ∧ fieldX w = x ∧ fieldKK w = kk := by
  rw [and_FFFF_eq_iff]
  constructor
  · rintro rfl
    obtain ⟨h, hx, hk, -⟩ := wordXKK_fields hf x kk.isLt
    exact ⟨h, hx, by simpa using hk⟩
  · rintro ⟨h, rfl, rfl⟩
    have hw : w.toNat / 4096 = f := by rw [← fieldFamily_val, h]
    apply BitVec.eq_of_toNat_eq
    rw [wordXKK_toNat hf _ (BitVec.isLt _), fieldX_val, fieldKK_toNat]
    omega

theorem agrees_xyn_iff (x y : Reg) (n : Fin 16) :
    w &&& 0xFFFF = wordXYN f x y n.val &&& 0xFFFF ↔
      fieldFamily w = ⟨f, hf⟩ ∧ fieldX w = x ∧ fieldY w = y ∧ fieldN w = n := by
  obtain ⟨h, hx, hy, hn⟩ := wordXYN_fields hf x y n.isLt
  rw [and_FFFF_eq_iff, word_eq_iff_digits, h, hx, hy, hn]

theorem agrees_xy_iff (x y : Reg) :
    w &&& 0xFFF0 = wordXYN f x y 0x0 &&& 0xFFF0 ↔ fieldFamily w = ⟨f, hf⟩ ∧ fieldX w = x ∧ fieldY w = y := by
  obtain ⟨h, hx, hy, -⟩ := wordXYN_fields hf x y (n := 0) (by decide)
  rw [and_FFF0_eq_iff, h, hx, hy]

theorem agrees_xk_iff (x : Reg) {kk : Nat} (hk : kk < 256) {k : Fin 16} (hkk : kk % 16 = k.val) :
    w &&& 0xFF0F = wordXKK f x kk &&& 0xFF0F ↔ fieldFamily w = ⟨f, hf⟩ ∧ fieldX w = x ∧ fieldN w = k := by
  obtain ⟨h, hx, -, hn⟩ := wordXKK_fields hf x hk
  rw [and_FF0F_eq_iff, h, hx, Fin.ext (hn.trans hkk)]

end

/-! ### What the key tables hold (R76 to R78) -/

/-- An entry of family 0x8's table makes an instruction whose canonical word carries the entry's key. -/
theorem keys8_encode {k : Fin 16} {make : Reg → Reg → Instr} (h : (k, make) ∈ keys8) (x y : Reg) :
    (make x y).WellFormed ∧ examinedMask (make x y) = 0xFFFF ∧ encode (make x y) = wordXYN 0x8 x y k.val := by
  simp only [keys8, List.mem_cons, Prod.mk.injEq, List.not_mem_nil, or_false] at h
  rcases h with h | h | h | h | h | h | h | h | h <;> obtain ⟨rfl, rfl⟩ := h <;> exact ⟨rfl, rfl, rfl⟩

/-- An entry of family 0xE's table makes an instruction whose canonical word has the entry's key as its low digit. -/
theorem keysE_encode {k : Fin 16} {make : Reg → Instr} (h : (k, make) ∈ keysE) (x : Reg) :
    (make x).WellFormed ∧ examinedMask (make x) = 0xFF0F ∧
      ∃ kk < 256, kk % 16 = k.val ∧ encode (make x) = wordXKK 0xE x kk := by
  simp only [keysE, List.mem_cons, Prod.mk.injEq, List.not_mem_nil, or_false] at h
  rcases h with ⟨rfl, rfl⟩ | ⟨rfl, rfl⟩
  · exact ⟨rfl, rfl, 0x9E, by decide, rfl, rfl⟩
  · exact ⟨rfl, rfl, 0xA1, by decide, rfl, rfl⟩

/-- An entry of family 0xF's table makes an instruction whose canonical word carries the entry's key. -/
theorem keysF_encode {k : Byte} {make : Reg → Instr} (h : (k, make) ∈ keysF) (x : Reg) :
    (make x).WellFormed ∧ examinedMask (make x) = 0xFFFF ∧ encode (make x) = wordXKK 0xF x k.toNat := by
  simp only [keysF, List.mem_cons, Prod.mk.injEq, List.not_mem_nil, or_false] at h
  rcases h with h | h | h | h | h | h | h | h | h <;> obtain ⟨rfl, rfl⟩ := h <;> exact ⟨rfl, rfl, rfl⟩

/-- A word that carries a key registered for family 0x8 is dispatched to that key's instruction. -/
theorem decode_of_key8 {w : Word} {x y : Reg} {k : Fin 16} {make : Reg → Reg → Instr}
    (hl : keys8.lookup k = some make) (h : w &&& 0xFFFF = wordXYN 0x8 x y k.val &&& 0xFFFF) :
    decode w = .ok (make x y) := by
  obtain ⟨hf, rfl, rfl, rfl⟩ := (agrees_xyn_iff (by decide) x y k).1 h
  rw [decode_of_family hf]
  change decode8 w = _
  rw [decode8, hl]

/-- A word that carries a key registered for family 0xE is dispatched to that key's instruction. -/
theorem decode_of_keyE {w : Word} {x : Reg} {k : Fin 16} {make : Reg → Instr} (hl : keysE.lookup k = some make)
    {kk : Nat} (hk : kk < 256) (hkk : kk % 16 = k.val) (h : w &&& 0xFF0F = wordXKK 0xE x kk &&& 0xFF0F) :
    decode w = .ok (make x) := by
  obtain ⟨hf, rfl, rfl⟩ := (agrees_xk_iff (by decide) x hk hkk).1 h
  rw [decode_of_family hf]
  change decodeE w = _
  rw [decodeE, hl]

/-- A word that carries a key registered for family 0xF is dispatched to that key's instruction. -/
theorem decode_of_keyF {w : Word} {x : Reg} {k : Byte} {make : Reg → Instr} (hl : keysF.lookup k = some make)
    (h : w &&& 0xFFFF = wordXKK 0xF x k.toNat &&& 0xFFFF) : decode w = .ok (make x) := by
  obtain ⟨hf, rfl, rfl⟩ := (agrees_xkk_iff (by decide) x k).1 h
  rw [decode_of_family hf]
  change decodeF w = _
  rw [decodeF, hl]

/-! ### Decoding is agreeing on the examined bits -/

theorem sysOperandOk_iff (nnn : BitVec 12) :
    sysOperandOk nnn = true ↔ nnn.toNat % 16 ≠ 0x0 ∧ nnn.toNat % 16 ≠ 0xE := by
  simp [sysOperandOk]

/-- A word agrees with the canonical word of an instruction on the bits that take part in decoding to it (R79). -/
def Instr.AgreesWith (i : Instr) (w : Word) : Prop := w &&& examinedMask i = encode i &&& examinedMask i

/-- The key that SYS must not have (R75) is the low digit of its `nnn`. -/
theorem fieldNNN_toNat_mod (op : Word) : (fieldNNN op).toNat % 16 = (fieldN op).val := by
  rw [fieldNNN_toNat, fieldN_val]
  omega

/-- Family 0x0: the key tells CLS and RET from SYS, so that a SYS it makes is well formed (R75). -/
theorem decode0_sound {w : Word} (hf : fieldFamily w = 0x0) :
    (decode0 w).WellFormed ∧ (decode0 w).AgreesWith w := by
  rcases decode0_cases w with ⟨hn, hd⟩ | ⟨hn, hd⟩ | ⟨h0, hE, hd⟩ <;> rw [hd]
  · exact ⟨rfl, (and_F00F_eq_iff w 0x00E0).2 ⟨hf, hn⟩⟩
  · exact ⟨rfl, (and_F00F_eq_iff w 0x00EE).2 ⟨hf, hn⟩⟩
  · refine ⟨(sysOperandOk_iff _).2 ?_, (agrees_nnn_iff (by decide) _).2 ⟨hf, rfl⟩⟩
    rw [fieldNNN_toNat_mod]
    exact ⟨Fin.val_ne_of_ne h0, Fin.val_ne_of_ne hE⟩

theorem decode8_sound {w : Word} {i : Instr} (hf : fieldFamily w = 0x8) (h : decode8 w = .ok i) :
    i.WellFormed ∧ i.AgreesWith w := by
  rcases decode8_cases w with ⟨make, hk, hd⟩ | ⟨-, hd⟩ <;> rw [hd] at h <;> cases h
  obtain ⟨hwf, hm, he⟩ := keys8_encode hk (fieldX w) (fieldY w)
  rw [Instr.AgreesWith, hm, he]
  exact ⟨hwf, (agrees_xyn_iff (by decide) _ _ _).2 ⟨hf, rfl, rfl, rfl⟩⟩

theorem decodeE_sound {w : Word} {i : Instr} (hf : fieldFamily w = 0xE) (h : decodeE w = .ok i) :
    i.WellFormed ∧ i.AgreesWith w := by
  rcases decodeE_cases w with ⟨make, hk, hd⟩ | ⟨-, hd⟩ <;> rw [hd] at h <;> cases h
  obtain ⟨hwf, hm, kk, hlt, hkk, he⟩ := keysE_encode hk (fieldX w)
  rw [Instr.AgreesWith, hm, he]
  exact ⟨hwf, (agrees_xk_iff (by decide) _ hlt hkk).2 ⟨hf, rfl, rfl⟩⟩

theorem decodeF_sound {w : Word} {i : Instr} (hf : fieldFamily w = 0xF) (h : decodeF w = .ok i) :
    i.WellFormed ∧ i.AgreesWith w := by
  rcases decodeF_cases w with ⟨make, hk, hd⟩ | ⟨-, hd⟩ <;> rw [hd] at h <;> cases h
  obtain ⟨hwf, hm, he⟩ := keysF_encode hk (fieldX w)
  rw [Instr.AgreesWith, hm, he]
  exact ⟨hwf, (agrees_xkk_iff (by decide) _ _).2 ⟨hf, rfl, rfl⟩⟩

/-- The decoder's direction: each family's instruction is made of the word's own fields. -/
theorem decode_sound {w : Word} {i : Instr} (h : decode w = .ok i) : i.WellFormed ∧ i.AgreesWith w := by
  rcases decode_cases w with ⟨hf, hd⟩ | ⟨hf, hd⟩ | ⟨hf, hd⟩ | ⟨hf, hd⟩ | ⟨hf, hd⟩ | ⟨hf, hd⟩ | ⟨hf, hd⟩ | ⟨hf, hd⟩ |
    ⟨hf, hd⟩ | ⟨hf, hd⟩ | ⟨hf, hd⟩ | ⟨hf, hd⟩ | ⟨hf, hd⟩ | ⟨hf, hd⟩ | ⟨hf, hd⟩ | ⟨hf, hd⟩ <;> rw [hd] at h
  · cases h; exact decode0_sound hf
  · cases h; exact ⟨rfl, (agrees_nnn_iff (by decide) _).2 ⟨hf, rfl⟩⟩
  · cases h; exact ⟨rfl, (agrees_nnn_iff (by decide) _).2 ⟨hf, rfl⟩⟩
  · cases h; exact ⟨rfl, (agrees_xkk_iff (by decide) _ _).2 ⟨hf, rfl, rfl⟩⟩
  · cases h; exact ⟨rfl, (agrees_xkk_iff (by decide) _ _).2 ⟨hf, rfl, rfl⟩⟩
  · cases h; exact ⟨rfl, (agrees_xy_iff (by decide) _ _).2 ⟨hf, rfl, rfl⟩⟩
  · cases h; exact ⟨rfl, (agrees_xkk_iff (by decide) _ _).2 ⟨hf, rfl, rfl⟩⟩
  · cases h; exact ⟨rfl, (agrees_xkk_iff (by decide) _ _).2 ⟨hf, rfl, rfl⟩⟩
  · exact decode8_sound hf h
  · cases h; exact ⟨rfl, (agrees_xy_iff (by decide) _ _).2 ⟨hf, rfl, rfl⟩⟩
  · cases h; exact ⟨rfl, (agrees_nnn_iff (by decide) _).2 ⟨hf, rfl⟩⟩
  · cases h; exact ⟨rfl, (agrees_nnn_iff (by decide) _).2 ⟨hf, rfl⟩⟩
  · cases h; exact ⟨rfl, (agrees_xkk_iff (by decide) _ _).2 ⟨hf, rfl, rfl⟩⟩
  · cases h; exact ⟨rfl, (agrees_xyn_iff (by decide) _ _ _).2 ⟨hf, rfl, rfl, rfl⟩⟩
  · exact decodeE_sound hf h
  · exact decodeF_sound hf h

/-- The encoder's direction: a word with the fields of a canonical word is dispatched to its instruction. -/
theorem decode_of_agreesWith {w : Word} {i : Instr} (hwf : i.WellFormed) (h : i.AgreesWith w) : decode w = .ok i := by
  cases i with
  | sys nnn =>
    obtain ⟨hf, rfl⟩ := (agrees_nnn_iff (by decide) _).1 h
    obtain ⟨h0, hE⟩ := (sysOperandOk_iff _).1 hwf
    rw [fieldNNN_toNat_mod] at h0 hE
    rw [decode_of_family hf]
    rcases decode0_cases w with ⟨hn, -⟩ | ⟨hn, -⟩ | ⟨-, -, hd⟩
    · exact absurd (congrArg Fin.val hn) h0
    · exact absurd (congrArg Fin.val hn) hE
    · exact congrArg Except.ok hd
  | cls =>
    obtain ⟨hf, hn⟩ := (and_F00F_eq_iff w 0x00E0).1 h
    rw [decode_of_family hf]
    exact congrArg Except.ok (if_pos hn)
  | ret =>
    obtain ⟨hf, hn⟩ := (and_F00F_eq_iff w 0x00EE).1 h
    rw [decode_of_family hf]
    change Except.ok (decode0 w) = _
    rw [decode0, hn]
    rfl
  | jp nnn | call nnn | ldI nnn | jpV0 nnn =>
    obtain ⟨hf, rfl⟩ := (agrees_nnn_iff (by decide) _).1 h
    exact decode_of_family hf
  | seByte x kk | sneByte x kk | ldByte x kk | addByte x kk | rnd x kk =>
    obtain ⟨hf, rfl, rfl⟩ := (agrees_xkk_iff (by decide) _ _).1 h
    exact decode_of_family hf
  | seReg x y | sneReg x y =>
    obtain ⟨hf, rfl, rfl⟩ := (agrees_xy_iff (by decide) _ _).1 h
    exact decode_of_family hf
  | drw x y n =>
    obtain ⟨hf, rfl, rfl, rfl⟩ := (agrees_xyn_iff (by decide) _ _ _).1 h
    exact decode_of_family hf
  | ldReg x y => exact decode_of_key8 (k := 0x0) rfl h
  | orReg x y => exact decode_of_key8 (k := 0x1) rfl h
  | andReg x y => exact decode_of_key8 (k := 0x2) rfl h
  | xorReg x y => exact decode_of_key8 (k := 0x3) rfl h
  | addReg x y => exact decode_of_key8 (k := 0x4) rfl h
  | subReg x y => exact decode_of_key8 (k := 0x5) rfl h
  | shr x y => exact decode_of_key8 (k := 0x6) rfl h
  | subn x y => exact decode_of_key8 (k := 0x7) rfl h
  | shl x y => exact decode_of_key8 (k := 0xE) rfl h
  | skp x => exact decode_of_keyE (k := 0xE) (kk := 0x9E) rfl (by decide) rfl h
  | sknp x => exact decode_of_keyE (k := 0x1) (kk := 0xA1) rfl (by decide) rfl h
  | ldVxDT x => exact decode_of_keyF (k := 0x07) rfl h
  | ldVxK x => exact decode_of_keyF (k := 0x0A) rfl h
  | ldDTVx x => exact decode_of_keyF (k := 0x15) rfl h
  | ldSTVx x => exact decode_of_keyF (k := 0x18) rfl h
  | addIVx x => exact decode_of_keyF (k := 0x1E) rfl h
  | ldFVx x => exact decode_of_keyF (k := 0x29) rfl h
  | ldBVx x => exact decode_of_keyF (k := 0x33) rfl h
  | ldMemVx x => exact decode_of_keyF (k := 0x55) rfl h
  | ldVxMem x => exact decode_of_keyF (k := 0x65) rfl h

/-- The decoder is the inverse of the encoder, up to the ignored bits (R79, R80). -/
theorem decode_eq_ok_iff (w : Word) (i : Instr) : decode w = .ok i ↔ i.WellFormed ∧ i.AgreesWith w :=
  ⟨decode_sound, fun ⟨hwf, h⟩ => decode_of_agreesWith hwf h⟩

/-! ### The words that are no instruction (R81) -/

theorem decode8_error_iff (w : Word) : (∃ r, decode8 w = .error r) ↔ keys8.lookup (fieldN w) = none := by
  unfold decode8
  cases keys8.lookup (fieldN w) <;> simp

theorem decodeE_error_iff (w : Word) : (∃ r, decodeE w = .error r) ↔ keysE.lookup (fieldN w) = none := by
  unfold decodeE
  cases keysE.lookup (fieldN w) <;> simp

theorem decodeF_error_iff (w : Word) : (∃ r, decodeF w = .error r) ↔ keysF.lookup (fieldKK w) = none := by
  unfold decodeF
  cases keysF.lookup (fieldKK w) <;> simp

/-- Only the three families with a key table reject a word, each when the table does not hold the word's key. -/
theorem decode_error_iff (w : Word) :
    (∃ r, decode w = .error r) ↔
      (fieldFamily w = 0x8 ∧ keys8.lookup (fieldN w) = none) ∨ (fieldFamily w = 0xE ∧ keysE.lookup (fieldN w) = none) ∨
        (fieldFamily w = 0xF ∧ keysF.lookup (fieldKK w) = none) := by
  rw [← decode8_error_iff, ← decodeE_error_iff, ← decodeF_error_iff]
  constructor
  · rintro ⟨r, h⟩
    have hcases : (fieldFamily w = 0x8 ∧ .error r = decode8 w) ∨ (fieldFamily w = 0xE ∧ .error r = decodeE w) ∨
        (fieldFamily w = 0xF ∧ .error r = decodeF w) := by
      simpa [h] using decode_cases w
    exact hcases.imp (fun ⟨hf, hd⟩ => ⟨hf, r, hd.symm⟩)
      (.imp (fun ⟨hf, hd⟩ => ⟨hf, r, hd.symm⟩) fun ⟨hf, hd⟩ => ⟨hf, r, hd.symm⟩)
  · rintro (⟨hf, h⟩ | ⟨hf, h⟩ | ⟨hf, h⟩) <;> rw [decode_of_family hf] <;> exact h

theorem keys8_lookup_eq_none_iff :
    ∀ n : Fin 16, keys8.lookup n = none ↔ n.val ∈ [0x8, 0x9, 0xA, 0xB, 0xC, 0xD, 0xF] := by decide

theorem keysE_lookup_eq_none_iff : ∀ n : Fin 16, keysE.lookup n = none ↔ n.val ∉ [0x1, 0xE] := by decide

theorem keysF_lookup_eq_none_iff (b : Byte) :
    keysF.lookup b = none ↔ b.toNat ∉ [0x07, 0x0A, 0x15, 0x18, 0x1E, 0x29, 0x33, 0x55, 0x65] := by
  simp [List.lookup_eq_none_iff, keysF, BitVec.toNat_eq]

/-! ### The statements about the encoding -/

/-- Settles O2: a canonical word agrees with itself. -/
theorem decodeOfEncodeIsTheInstruction : Obligations.DecodeOfEncodeIsTheInstruction :=
  fun i hwf => (decode_eq_ok_iff (encode i) i).2 ⟨hwf, rfl⟩

/-- Settles O3, from the decoder's direction. -/
theorem decodedWordAgreesWithItsEncoding : Obligations.DecodedWordAgreesWithItsEncoding := by
  intro w i h
  obtain ⟨hwf, hw⟩ := (decode_eq_ok_iff w i).1 h
  exact ⟨hwf, hw.symm⟩

/-- Settles O4: both words agree with the canonical word. -/
theorem ignoredBitsDoNotChangeDecoding : Obligations.IgnoredBitsDoNotChangeDecoding := by
  intro w w' i h hw'
  obtain ⟨hwf, hw⟩ := (decode_eq_ok_iff w i).1 h
  exact (decode_eq_ok_iff w' i).2 ⟨hwf, hw'.trans hw⟩

/-- Settles O5: the word's family and keys in arithmetic, and each table's missing keys written out. -/
theorem illegalWordsAreTheUnregisteredKeys : Obligations.IllegalWordsAreTheUnregisteredKeys := by
  intro w
  rw [decode_error_iff, keys8_lookup_eq_none_iff, keysE_lookup_eq_none_iff, keysF_lookup_eq_none_iff, fieldN_val,
    fieldKK_toNat, ← fieldFamily_val, Fin.ext_iff, Fin.ext_iff, Fin.ext_iff]
  rfl

/-- Settles O1: each word decodes by evaluation. -/
theorem wordsOfTheMapDecode : Obligations.WordsOfTheMapDecode := by
  and_intros <;> rfl

end Sys2Proof

namespace Sys2Proof.Machine

/-- Settles O26: the run with the other toggles and the same keypad and `ST`. -/
theorem quirksReachOnlyFourHandlers : Obligations.QuirksReachOnlyFourHandlers := by
  intro i s t q hi h
  obtain ⟨w, hw, hST⟩ := exec_withInputs s.ST (fun _ => rfl) (fun hr => by simp [hi] at hr) h
  have ht : t.withInputs s.keypad q w = { t with quirks := q } := by
    rw [← (exec_frame h).keypad, hST rfl]; rfl
  rw [ht] at hw
  exact hw

end Sys2Proof.Machine

/-! ## Proofs: the cycle (40_cycle_driver.md)

Two facts about the handlers carry this family: with a legal `sp` every handler gives a next state (`exec_total`), and a
handler raises its one error in a state it leaves alone, or does not touch the report (`exec_report_cases`). -/

namespace Sys2Proof.Machine

/-! ### A legal `sp` -/

/-- Only CALL and RET can stop, and they do so outside the legal `sp` alone (R25). -/
theorem exec_total (i : Instr) {s : State} (hs : s.sp.toNat ≤ 16) : ∃ t, exec i s = .next t := by
  cases i with
  | call nnn =>
    obtain ⟨-, he⟩ | ⟨k, -, he⟩ | ⟨hgt, -⟩ := execCall_cases nnn s
    · exact ⟨_, he⟩
    · exact ⟨_, he⟩
    · omega
  | ret =>
    obtain ⟨-, he⟩ | ⟨k, -, -, he⟩ | ⟨hgt, -⟩ := execRet_cases s
    · exact ⟨_, he⟩
    · exact ⟨_, he⟩
    · omega
  | _ => exact ⟨_, rfl⟩

/-! ### The report of a handler -/

@[simp] theorem State.waitKey_report (s : State) (x : Reg) (key : Option (Fin 16)) :
    (s.waitKey x key).report = s.report := by
  cases key <;> rfl

/-- A handler writes the report only where CALL finds the stack full or RET finds it empty (R173, R174). -/
theorem exec_report {i : Instr} {s t : State} (h : exec i s = .next t) (hcall : s.sp = 16 → ∀ nnn, i ≠ .call nnn)
    (hret : s.sp = 0 → i ≠ .ret) : t.report = s.report := by
  cases i with
  | call nnn =>
    obtain ⟨h16, -⟩ | ⟨k, -, rfl⟩ := exec_call_next h
    · exact absurd rfl (hcall h16 nnn)
    · rfl
  | ret =>
    obtain ⟨h0, -⟩ | ⟨k, -, rfl⟩ := exec_ret_next h
    · exact absurd rfl (hret h0)
    · rfl
  | seByte x kk | sneByte x kk | seReg x y | sneReg x y | skp x | sknp x => cases h; exact State.skipIf_report s _
  | ldVxK x => cases h; exact State.waitKey_report s x _
  | ldBVx x | ldMemVx x => cases h; exact State.memWriteBytes_report s _ _
  | ldVxMem x => cases h; rw [State.setI_report, (s.loads_spec (regsUpTo x)).2]
  | _ => cases h; rfl

/-- The three ways a handler goes: StackOverflow or StackUnderflow with nothing else changed, or the report left as it
was (R170, R176). -/
theorem exec_report_cases {i : Instr} {s t : State} (h : exec i s = .next t) :
    (∃ nnn, i = .call nnn ∧ s.sp = 16 ∧ t = s.raiseError .stackOverflow) ∨
    (i = .ret ∧ s.sp = 0 ∧ t = s.raiseError .stackUnderflow) ∨
    ((s.sp = 16 → ∀ nnn, i ≠ .call nnn) ∧ (s.sp = 0 → i ≠ .ret) ∧ t.report = s.report) := by
  by_cases hcall : s.sp = 16 ∧ ∃ nnn, i = .call nnn
  · obtain ⟨h16, nnn, rfl⟩ := hcall
    cases (execCall_full nnn h16).symm.trans h
    exact .inl ⟨nnn, rfl, h16, rfl⟩
  by_cases hret : s.sp = 0 ∧ i = .ret
  · obtain ⟨h0, rfl⟩ := hret
    cases (execRet_empty h0).symm.trans h
    exact .inr (.inl ⟨rfl, h0, rfl⟩)
  have hcall' : s.sp = 16 → ∀ nnn, i ≠ .call nnn := fun h16 nnn hi => hcall ⟨h16, nnn, hi⟩
  have hret' : s.sp = 0 → i ≠ .ret := fun h0 hi => hret ⟨h0, hi⟩
  exact .inr (.inr ⟨hcall', hret', exec_report h hcall' hret'⟩)

/-- The state a raising cycle ends in: the fetch, the tick, and the error with the word and the address it was fetched
from (R170, R176). -/
theorem State.fetched_raiseError_tick (s : State) (error : Word → Word → Report) :
    (s.fetched.raiseError error).tick =
      { s.fetched with DT := ticked s.DT, ST := ticked s.ST, report := some (error s.fetchWord s.pc) } := by
  have hpc : s.fetched.instrAddr = s.pc := BitVec.add_sub_cancel s.pc 2
  rw [State.tick_eq, State.raiseError, hpc]

/-! ### The statements about the cycle -/

/-- Settles O17: an illegal word raises DecodeError, a handler raises its one error or leaves the report that the fetch
has cleared, and the fetched state does not depend on the old report. -/
theorem reportIsTheOneErrorOfTheCycle : Obligations.ReportIsTheOneErrorOfTheCycle := by
  refine ⟨fun s t h => ?_, fun s r => step_eq_of_fetched_eq rfl⟩
  obtain ⟨i, u, hd, hx, rfl⟩ | ⟨r, hd, rfl⟩ := step_next_cases h
  · obtain ⟨nnn, rfl, h16, rfl⟩ | ⟨rfl, h0, rfl⟩ | ⟨hcall, hret, hreport⟩ := exec_report_cases hx
    · have hsp : s.sp = 16 := h16
      rw [State.fetched_raiseError_tick]
      simp [hd, hsp]
    · have hsp : s.sp = 0 := h0
      rw [State.fetched_raiseError_tick]
      simp [hd, hsp]
    · have hnone : u.tick.report = none := hreport
      simp only [hd, Except.ok.injEq]
      exact ⟨nofun, fun ⟨nnn, hi⟩ h16 => absurd hi (hcall h16 nnn), fun hi h0 => absurd hi (hret h0),
        fun _ _ _ => hnone, fun hne => absurd hnone hne⟩
  · rw [State.fetched_raiseError_tick]
    simp [hd]

/-- Settles O10: a decoded word's handler gives a next state, and so does DecodeError. -/
theorem cycleIsTotal : Obligations.CycleIsTotal := by
  intro s hs
  obtain ⟨i, -, hstep⟩ | ⟨r, -, hstep⟩ := step_cases s
  · obtain ⟨u, hu⟩ := exec_total i (s := s.fetched) hs
    exact ⟨u.tick, by rw [hstep, hu, tickResult]⟩
  · exact ⟨_, hstep⟩

/-- Settles O11, by induction on the number of cycles: a sound state has a next state, which is sound. -/
theorem runsFromSoundStatesNeverStop : Obligations.RunsFromSoundStatesNeverStop := by
  intro k
  induction k with
  | zero => exact fun s hs => ⟨s, rfl, hs⟩
  | succ k ih =>
    intro s hs
    obtain ⟨t, ht⟩ := cycleIsTotal s hs.2
    rw [run_succ k ht]
    exact ih t (stepKeepsTheInvariant s t hs ht)

/-- Settles O6: the step of a decoded word, and the tick in numbers. -/
theorem stepRunsTheDecodedInstruction : Obligations.StepRunsTheDecodedInstruction :=
  ⟨fun _ _ h => step_of_decode h, fun t => congrArg Host.Outcome.next t.tick_eq, fun _ => rfl⟩

end Sys2Proof.Machine

/-! ## Proofs: register load, arithmetic, logic, shifts (41_alu.md)

Every handler of this family answers with one of two register writes: the result alone (`State.setReg`), or the result
and then the flag (`State.writeWithFlag`). What each leaves unchanged is said once; what is left of a statement is the
value of its result and its flag in numbers. -/

namespace Sys2Proof.Machine

/-! ### The two register writes -/

/-- What writing one register leaves unchanged, in the form the statements ask for. -/
theorem State.setReg_frame (s : State) (x : Reg) (b : Byte) :
    (∀ z, z ≠ x → (s.setReg x b).reg z = s.reg z) ∧ s.setReg x b = { s with V := (s.setReg x b).V } ∧
      ∀ a, (s.setReg x b).memRead a = s.memRead a :=
  ⟨fun z hz => by rw [State.setReg_reg, if_neg hz], rfl, s.setReg_memRead x b⟩

/-- A handler that writes its result and then its flag: with `x = 0xF` the flag is what remains (R101, D9). -/
theorem exec_writeWithFlag {i : Instr} {s : State} {x : Reg} {r f : Byte} {result flag : Nat}
    (h : exec i s = .next (s.writeWithFlag x r f)) (hr : r.toNat = result) (hf : f.toNat = flag) :
    ∃ t, exec i s = .next t ∧ (x ≠ 0xF → (t.reg x).toNat = result) ∧ (t.reg 0xF).toNat = flag ∧
      (∀ z, z ≠ x → z ≠ 0xF → t.reg z = s.reg z) ∧ t = { s with V := t.V } ∧ ∀ a, t.memRead a = s.memRead a := by
  refine ⟨_, h, fun hx => ?_, ?_, fun z hz hF => ?_, rfl, s.writeWithFlag_memRead x r f⟩
  · rw [State.writeWithFlag_reg, if_neg hx, if_pos rfl, hr]
  · rw [State.writeWithFlag_reg, if_pos rfl, hf]
  · rw [State.writeWithFlag_reg, if_neg hF, if_neg hz]

/-! ### Results and flags in numbers -/

theorem byte_sub_toNat (a b : Byte) : (a - b).toNat = (a.toNat + 256 - b.toNat) % 256 := by
  have := b.isLt
  rw [BitVec.toNat_sub]
  omega

theorem byte_shiftRight_toNat (v : Byte) : (v >>> 1).toNat = v.toNat / 2 := by
  rw [BitVec.toNat_ushiftRight, Nat.shiftRight_one]

theorem byte_shiftLeft_toNat (v : Byte) : (v <<< 1).toNat = 2 * v.toNat % 256 := by
  rw [BitVec.toNat_shiftLeft, Nat.shiftLeft_eq, Nat.pow_one, Nat.mul_comm]

theorem carryFlag_toNat (a b : Byte) : (carryFlag a b).toNat = if a.toNat + b.toNat > 255 then 1 else 0 := by
  simp only [carryFlag, flagByte_toNat, decide_eq_true_eq]

theorem noBorrowFlag_toNat (a b : Byte) : (noBorrowFlag a b).toNat = if a.toNat ≥ b.toNat then 1 else 0 := by
  simp only [noBorrowFlag, flagByte_toNat, decide_eq_true_eq]

theorem flagByte_getLsbD_toNat (v : Byte) (k : Nat) : (flagByte (v.getLsbD k)).toNat = v.toNat / 2 ^ k % 2 := by
  rw [flagByte_toNat, BitVec.getLsbD, ← Nat.toNat_testBit]
  cases v.toNat.testBit k <;> rfl

theorem shiftedOutRight_toNat (v : Byte) : (shiftedOutRight v).toNat = v.toNat % 2 := by
  rw [shiftedOutRight, flagByte_getLsbD_toNat]
  omega

theorem shiftedOutLeft_toNat (v : Byte) : (shiftedOutLeft v).toNat = v.toNat / 128 := by
  have := v.isLt
  rw [shiftedOutLeft, flagByte_getLsbD_toNat]
  omega

/-! ### The statements about the register instructions -/

/-- Settles O28: the word is the canonical one of R80, and the handler writes one register. -/
theorem loadByteWritesTheImmediate : Obligations.LoadByteWritesTheImmediate := by
  intro x kk s
  refine ⟨?_, _, rfl, s.setReg_reg_self x kk, s.setReg_frame x kk⟩
  rw [Nat.mul_comm 256]
  exact decodeOfEncodeIsTheInstruction (.ldByte x kk) rfl

/-- Settles O29: the word is the canonical one of R80, and the handler writes one register, with the sum modulo 256. -/
theorem addByteWrapsAndLeavesTheFlag : Obligations.AddByteWrapsAndLeavesTheFlag := by
  intro x kk s
  refine ⟨?_, _, rfl, ?_, s.setReg_frame x _⟩
  · rw [Nat.mul_comm 256]
    exact decodeOfEncodeIsTheInstruction (.addByte x kk) rfl
  · rw [State.setReg_reg_self, BitVec.toNat_add]

/-- Settles O30: each of the four handlers writes one register, with the bits of its operation. -/
theorem copyAndLogicWriteOnlyTheDestination : Obligations.CopyAndLogicWriteOnlyTheDestination := by
  intro x y s
  refine ⟨⟨_, rfl, ?_, s.setReg_frame x _⟩, ⟨_, rfl, fun j => ?_, s.setReg_frame x _⟩,
    ⟨_, rfl, fun j => ?_, s.setReg_frame x _⟩, ⟨_, rfl, fun j => ?_, s.setReg_frame x _⟩⟩
  · rw [State.setReg_reg_self]
  · rw [State.setReg_reg_self, BitVec.getLsbD_or]
  · rw [State.setReg_reg_self, BitVec.getLsbD_and]
  · rw [State.setReg_reg_self, BitVec.getLsbD_xor]

/-- Settles O31: the sum, then the carry. -/
theorem addWritesSumAndCarry : Obligations.AddWritesSumAndCarry :=
  fun x y s => exec_writeWithFlag rfl (BitVec.toNat_add (s.reg x) (s.reg y)) (carryFlag_toNat (s.reg x) (s.reg y))

/-- Settles O32: the difference, then the no-borrow flag, with the operands exchanged for SUBN. -/
theorem subtractionsWriteDifferenceAndNoBorrow : Obligations.SubtractionsWriteDifferenceAndNoBorrow :=
  fun x y s =>
    ⟨exec_writeWithFlag rfl (byte_sub_toNat (s.reg x) (s.reg y)) (noBorrowFlag_toNat (s.reg x) (s.reg y)),
      exec_writeWithFlag rfl (byte_sub_toNat (s.reg y) (s.reg x)) (noBorrowFlag_toNat (s.reg y) (s.reg x))⟩

/-- Settles O33: the named number is the shift source under either toggle value; the shifted byte, then the bit shifted
out. -/
theorem shiftsMoveOneBitIntoTheFlag : Obligations.ShiftsMoveOneBitIntoTheFlag := by
  intro x y s source hsource
  have hv : (s.shiftSource x y).toNat = source := hsource.symm
  subst hv
  exact ⟨exec_writeWithFlag rfl (byte_shiftRight_toNat _) (shiftedOutRight_toNat _),
    exec_writeWithFlag rfl (byte_shiftLeft_toNat _) (shiftedOutLeft_toNat _)⟩

end Sys2Proof.Machine

/-! ## Proofs: control transfer (42_control_flow.md)

A jump is one write of `pc` (`State.setPc`), a skip is one conditional write of it (`State.skipIf_beq`,
`State.skipIf_bne`), and a call and its return are `execCall_push` and `execRet_pop`, proved with the state above. A
return answers a call because the entry that CALL writes is the one that RET reads. -/

namespace Sys2Proof.Machine

/-! ### Writing `pc` -/

/-- What writing `pc` leaves unchanged, in the form the statements ask for. -/
theorem State.setPc_frame (s : State) (w : Word) :
    s.setPc w = { s with pc := (s.setPc w).pc } ∧ ∀ a, (s.setPc w).memRead a = s.memRead a :=
  ⟨rfl, s.setPc_memRead w⟩

/-- The sum of an address and a byte needs 13 bits, so that at 16 bits nothing wraps (R128). -/
theorem zextAddr_add_zextByte_toNat (nnn : BitVec 12) (b : Byte) :
    (zextAddr nnn + zextByte b).toNat = nnn.toNat + b.toNat := by
  have := nnn.isLt
  have := b.isLt
  rw [BitVec.toNat_add, zextAddr_toNat, zextByte_toNat]
  omega

/-- The skips on equality, in the form the statements ask for (R124, R126). -/
theorem State.skipIf_beq (s : State) (a b : Byte) :
    s.skipIf (a == b) = { s with pc := if a = b then s.pc + 2 else s.pc } := by
  simp only [State.skipIf_eq, beq_iff_eq]

/-- The skips on inequality, in the form the statements ask for (R125, R127). -/
theorem State.skipIf_bne (s : State) (a b : Byte) :
    s.skipIf (a != b) = { s with pc := if a = b then s.pc else s.pc + 2 } := by
  simp only [State.skipIf_eq, bne_iff_ne, ne_eq, ite_not]

/-! ### A cycle that jumps -/

/-- What is fetched depends on memory and `pc` alone (R91). -/
theorem State.fetchWord_congr {s t : State} (hmem : t.mem = s.mem) (hpc : t.pc = s.pc) :
    t.fetchWord = s.fetchWord := by
  simp only [State.fetchWord, State.memReadWord, State.memRead_congr hmem, hpc]

theorem step_jp {s : State} {nnn : BitVec 12} (h : decode s.fetchWord = .ok (.jp nnn)) :
    step s = .next (s.fetched.setPc (zextAddr nnn)).tick := step_of_decode h

/-- The jump word to an address below 4096 is `1nnn` with that address as `nnn` (R121). -/
theorem decode_jump_to {w pc : Word} (hpc : pc.toNat < 4096) (hw : w.toNat = 0x1000 + pc.toNat) :
    ∃ nnn, decode w = .ok (.jp nnn) ∧ zextAddr nnn = pc := by
  refine ⟨fieldNNN w, ?_, BitVec.eq_of_toNat_eq ?_⟩
  · have hf : fieldFamily w = 0x1 := Fin.ext (by rw [fieldFamily_val, Fin.val_one]; omega)
    exact decode_of_family hf
  · rw [zextAddr_toNat, fieldNNN_toNat]
    omega

/-! ### Words whose low digit is ignored -/

/-- Words of format XYN that differ in their low digit agree on the bits examined for the register skips (R79). -/
theorem wordXYN_agrees {f : Nat} (hf : f < 16) (x y k : Fin 16) :
    wordXYN f x y k.val &&& 0xFFF0 = wordXYN f x y 0x0 &&& 0xFFF0 := by
  obtain ⟨hfam, hx, hy, -⟩ := wordXYN_fields hf x y k.isLt
  exact (agrees_xy_iff hf x y).2 ⟨hfam, hx, hy⟩

/-! ### The statements about control transfer -/

/-- Settles O34: the words are the canonical ones of R80, and the cycle is the fetch and the tick alone. -/
theorem sysIsANoOp : Obligations.SysIsANoOp := by
  refine ⟨fun nnn h0 hE => ?_, fun _ _ => rfl, fun nnn s h => ?_⟩
  · have hword : encode (.sys nnn) = BitVec.ofNat 16 nnn.toNat := by
      rw [encode, wordNNN, Nat.zero_mul, Nat.zero_add]
    rw [← hword]
    exact decodeOfEncodeIsTheInstruction (.sys nnn) ((sysOperandOk_iff nnn).2 ⟨h0, hE⟩)
  · exact (step_of_decode h).trans (congrArg Host.Outcome.next s.fetched.tick_eq)

/-- Settles O35: the word is the canonical one of R80, the handler writes `pc` alone, and a jump to its own address
leaves both `pc` and the memory it is fetched from. -/
theorem jumpLoadsTheTarget : Obligations.JumpLoadsTheTarget := by
  refine ⟨fun nnn => decodeOfEncodeIsTheInstruction (.jp nnn) rfl,
    fun nnn s => ⟨_, rfl, zextAddr_toNat nnn, s.setPc_frame _⟩, fun s hpc hw => ?_⟩
  obtain ⟨nnn, hd, htarget⟩ := decode_jump_to hpc hw
  exact ⟨_, step_jp hd, htarget, State.fetchWord_congr rfl htarget⟩

/-- Settles O37: the entry at `sp` is written, and `sp` and `pc` after it. -/
theorem callPushesTheReturnAddress : Obligations.CallPushesTheReturnAddress := by
  intro nnn s k hk
  refine ⟨_, execCall_push nnn hk, Vector.getElem_set_self _, fun j hj => ?_, ?_, zextAddr_toNat nnn, rfl,
    fun _ => rfl⟩
  · exact Vector.getElem_set_ne k.isLt j.isLt (Fin.val_ne_of_ne hj.symm)
  · have hsp : (s.sp + 1).toNat = k.val + 1 := by bv_omega
    exact hsp

/-- Settles O38: `sp` falls to the index of the entry that `pc` is loaded from, and the stack is not written. -/
theorem returnPopsIntoPc : Obligations.ReturnPopsIntoPc := by
  intro s k hk
  have hsp : (s.sp - 1).toNat = k.val := by bv_omega
  exact ⟨_, execRet_pop hk, hsp, rfl, rfl, fun _ => rfl⟩

/-- Settles O41: CALL writes the entry at the old `sp`, and RET with the stack as CALL left it reads that entry. -/
theorem returnAnswersCall : Obligations.ReturnAnswersCall := by
  intro nnn s u hs
  obtain ⟨t, ht, hentry, -, htsp, -⟩ := callPushesTheReturnAddress nnn s ⟨s.sp.toNat, hs⟩ rfl
  refine ⟨t, ht, fun hstack hsp => ?_⟩
  obtain ⟨v, hv, hvsp, hvpc, -⟩ := returnPopsIntoPc u ⟨s.sp.toNat, hs⟩ (by rw [hsp, htsp])
  exact ⟨v, hv, by rw [hvpc, hstack, hentry], BitVec.eq_of_toNat_eq hvsp⟩

/-- Settles O42: the words with an immediate are the canonical ones of R80, those with two registers agree with theirs
on the examined bits, and each handler is one conditional advance of `pc`. -/
theorem registerSkipsAdvancePc : Obligations.RegisterSkipsAdvancePc := by
  refine ⟨fun x kk => ?_, fun x y k => ?_, fun x kk s => ?_, fun x y s => ?_⟩
  · rw [Nat.mul_comm 256]
    exact ⟨decodeOfEncodeIsTheInstruction (.seByte x kk) rfl, decodeOfEncodeIsTheInstruction (.sneByte x kk) rfl⟩
  · rw [Nat.mul_comm 256, Nat.mul_comm 16]
    exact ⟨decode_of_agreesWith (i := .seReg x y) rfl (wordXYN_agrees (f := 0x5) (by decide) x y k),
      decode_of_agreesWith (i := .sneReg x y) rfl (wordXYN_agrees (f := 0x9) (by decide) x y k)⟩
  · exact ⟨congrArg Host.Outcome.next (s.skipIf_beq _ _), congrArg Host.Outcome.next (s.skipIf_bne _ _)⟩
  · exact ⟨congrArg Host.Outcome.next (s.skipIf_beq _ _), congrArg Host.Outcome.next (s.skipIf_bne _ _)⟩

/-- Settles O36: the handler writes `pc` alone, with a sum that does not wrap. -/
theorem jumpV0AddsRegisterZero : Obligations.JumpV0AddsRegisterZero :=
  fun nnn s => ⟨_, rfl, zextAddr_add_zextByte_toNat nnn (s.reg 0), s.setPc_frame _⟩

end Sys2Proof.Machine

/-! ## Proofs: index register, BCD and block transfers (43_index_memory.md)

The three index instructions are one write of `I` (`State.setI`). LD B and the block store are one run of byte stores
through `I`: byte `i` is read back at `I + i` and no other byte changes (`State.storesAtIndex_memRead_at`,
`State.storesAtIndex_memRead_off`). The block load is `State.loads_spec`, and the round trip joins the two block
transfers at the address they share. -/

namespace Sys2Proof.Machine

/-! ### Writing `I` -/

/-- What writing `I` leaves unchanged, in the form the statements ask for. -/
theorem State.setI_frame (s : State) (w : Word) :
    s.setI w = { s with I := (s.setI w).I } ∧ ∀ a, (s.setI w).memRead a = s.memRead a :=
  ⟨rfl, s.setI_memRead w⟩

/-- A byte added to `I`, modulo 65536 (R141). -/
theorem index_add_zextByte_toNat (w : Word) (b : Byte) :
    (w + zextByte b).toNat = (w.toNat + b.toNat) % 65536 := by
  rw [BitVec.toNat_add, zextByte_toNat]

/-- The glyph address of a register's low four bits fits in 16 bits (R142, R150). -/
theorem glyphAddr_selector_toNat (b : Byte) :
    (glyphAddr (selector b)).toNat = 0x050 + 5 * (b.toNat % 16) := by
  rw [glyphAddr, BitVec.toNat_ofNat, selector_val, Config.fontBase, Config.glyphSize]
  omega

/-! ### Stores through `I` -/

section
variable {s : State} (h : Memory.wf s.mem = true) (vs : List Byte) (hl : vs.length ≤ 4096)
include h hl

/-- Byte `i` of the stores from `I` upward reads back at `I + i` (R147). -/
theorem State.storesAtIndex_memRead_at (i : Nat) (hi : i < vs.length) :
    (s.memWriteBytes (s.dataAddr 0) vs).memRead (s.dataAddr i) = vs[i] :=
  State.memWriteBytes_memRead_at h (s.dataAddr 0) vs hl i hi

/-- The stores from `I` upward leave the byte at every other address as it was. -/
theorem State.storesAtIndex_memRead_off (a : Nat) (ha : ∀ i, i < vs.length → wrapAddr a ≠ wrapAddr (s.dataAddr i)) :
    (s.memWriteBytes (s.dataAddr 0) vs).memRead a = s.memRead a :=
  State.memWriteBytes_memRead_off h (s.dataAddr 0) vs hl a ha

end

/-! ### The bytes that are stored -/

@[simp] theorem bcdDigits_length (v : Byte) : (bcdDigits v).length = 3 := rfl

/-- The three digits in numbers; none is cut off at eight bits (R143). -/
theorem bcdDigits_toNat (v : Byte) :
    (bcdDigits v)[0].toNat = v.toNat / 100 ∧ (bcdDigits v)[1].toNat = v.toNat / 10 % 10 ∧
      (bcdDigits v)[2].toNat = v.toNat % 10 := by
  have := v.isLt
  refine ⟨Nat.mod_eq_of_lt ?_, Nat.mod_eq_of_lt ?_, Nat.mod_eq_of_lt ?_⟩ <;> omega

theorem blockBytes_length (s : State) (x : Reg) : ((regsUpTo x).map s.reg).length = x.val + 1 := by
  rw [List.length_map, regsUpTo_length]

/-- Byte `i` of a block store is register `i` (R145). -/
theorem blockBytes_getElem (s : State) (x i : Reg) (hi : i.val < ((regsUpTo x).map s.reg).length) :
    ((regsUpTo x).map s.reg)[i.val] = s.reg i := by
  rw [List.getElem_map, regsUpTo_getElem]

/-! ### The statements about the index register and memory -/

/-- Settles O44: LD B is three stores from `I` upward, of the three digits. -/
theorem bcdStoresThreeDigits : Obligations.BcdStoresThreeDigits := by
  intro x s hs
  have hread := State.storesAtIndex_memRead_at hs (bcdDigits (s.reg x)) (by simp)
  obtain ⟨hhundreds, htens, hones⟩ := bcdDigits_toNat (s.reg x)
  refine ⟨_, rfl, ?_, ?_, ?_, ?_, State.memWriteBytes_eq s _ _⟩
  · rw [hread 0 (by simp), hhundreds]
  · rw [hread 1 (by simp), htens]
  · rw [hread 2 (by simp), hones]
  · exact State.storesAtIndex_memRead_off hs (bcdDigits (s.reg x)) (by simp)

/-- Settles O45: the block store is x + 1 stores from `I` upward, of V0 to Vx, and then the new `I`. -/
theorem blockStoreWritesRegisters : Obligations.BlockStoreWritesRegisters := by
  intro x s hs
  have hlen := blockBytes_length s x
  refine ⟨_, rfl, fun i hi => ?_, fun a ha => ?_, s.indexAfterBlock_toNat x, ?_⟩
  · have hlt : i.val < ((regsUpTo x).map s.reg).length := by rw [hlen]; exact Nat.lt_succ_of_le hi
    rw [State.setI_memRead, State.storesAtIndex_memRead_at hs _ (by omega) i.val hlt, blockBytes_getElem]
  · rw [State.setI_memRead]
    exact State.storesAtIndex_memRead_off hs _ (by omega) a fun i hi => ha i (by omega)
  · rw [State.memWriteBytes_eq]
    rfl

/-- Settles O46: the block load is a load of each of V0 to Vx, and then the new `I`. -/
theorem blockLoadReadsRegisters : Obligations.BlockLoadReadsRegisters := by
  intro x s
  obtain ⟨hreg, hrest⟩ := s.loads_spec (regsUpTo x)
  refine ⟨_, rfl, fun i hi => ?_, fun i hi => ?_, s.indexAfterBlock_toNat x, ?_,
    State.memRead_congr ((exec_frame (i := .ldVxMem x) rfl).mem rfl)⟩
  · rw [State.setI_reg, hreg, if_pos ((mem_regsUpTo x i).2 hi)]
  · rw [State.setI_reg, hreg, if_neg (mt (mem_regsUpTo x i).1 (Fin.not_le.2 hi))]
  · rw [hrest]
    rfl

/-- Settles O47: with the advance off the load reads from the `I` the store wrote from, and finds there the registers
as they were stored. -/
theorem blockStoreThenLoadRestoresRegisters : Obligations.BlockStoreThenLoadRestoresRegisters := by
  intro x s V' hs hq
  obtain ⟨t, ht, hstored, -, hI, -⟩ := blockStoreWritesRegisters x s hs
  obtain ⟨u, hu, hloaded, -⟩ := blockLoadReadsRegisters x { t with V := V' }
  rw [hq] at hI
  have haddr : ∀ i, t.dataAddr i = s.dataAddr i := fun i => congrArg (· + i) hI
  refine ⟨t, u, ht, hu, fun i hi => ?_⟩
  calc u.reg i
      = t.memRead (t.dataAddr i.val) := hloaded i hi
    _ = t.memRead (s.dataAddr i.val) := by rw [haddr]
    _ = s.reg i := hstored i hi

/-- Settles O43: each of the three handlers writes `I` alone. -/
theorem indexInstructionsWriteOnlyI : Obligations.IndexInstructionsWriteOnlyI :=
  fun nnn x s =>
    ⟨⟨_, rfl, zextAddr_toNat nnn, s.setI_frame _⟩,
      ⟨_, rfl, index_add_zextByte_toNat s.I (s.reg x), s.setI_frame _⟩,
      ⟨_, rfl, glyphAddr_selector_toNat (s.reg x), s.setI_frame _⟩⟩

end Sys2Proof.Machine

/-! ## Proofs: framebuffer, keypad, timers, random byte (44_io_timers.md)

What a draw does is `State.drawn_spec`, read here as the pixels it leaves and the hit it reports; a second draw flips the
same pixels, because which pixels a sprite covers depends on memory, `I` and the origin alone (`State.spriteBit_congr`).
The key wait turns on which key is the least (`State.leastKey_eq_some`, `State.leastKey_eq_none`). The timer moves and
RND are one write each, of a register or of a timer. -/

namespace Sys2Proof.Machine

/-! ### The framebuffer -/

@[simp] theorem pixel_blankVideo (px : Fin 64) (py : Fin 32) : pixel blankVideo px py = false := by
  simp [pixel, blankVideo]

theorem flagByte_eq_one_iff (f : Bool) : flagByte f = 1 ↔ f = true := by
  cases f <;> decide

theorem flagByte_eq_zero_iff (f : Bool) : flagByte f = 0 ↔ f = false := by
  cases f <;> decide

/-- DRW's hit: a pixel under the sprite was set (R152). -/
theorem State.drawn_hit_iff (s : State) (x y : Reg) (n : Fin 16) :
    (s.drawn x y n).hit = true ↔ ∃ px py, s.spriteBit x y n px py = true ∧ pixel s.video px py = true := by
  simpa using (s.drawn_spec x y n).2

/-- DRW's hit, the other way: every pixel under the sprite was clear. -/
theorem State.drawn_hit_eq_false_iff (s : State) (x y : Reg) (n : Fin 16) :
    (s.drawn x y n).hit = false ↔ ∀ px py, s.spriteBit x y n px py = true → pixel s.video px py = false := by
  rw [← Bool.not_eq_true, State.drawn_hit_iff]
  simp

/-- Which pixels a sprite covers depends on memory, `I` and the origin modulo the screen alone (R152). -/
theorem State.spriteBit_congr {s u : State} {x y : Reg} (hmem : u.mem = s.mem) (hI : u.I = s.I)
    (hx : (u.reg x).toNat % 64 = (s.reg x).toNat % 64) (hy : (u.reg y).toNat % 32 = (s.reg y).toNat % 32)
    (n : Fin 16) : u.spriteBit x y n = s.spriteBit x y n := by
  funext px py
  simp only [State.spriteBit, State.memRead_congr hmem, hI, hx, hy]

/-! ### The keypad -/

/-- The least pressed key is the pressed one below which none is pressed (R155, D12). -/
theorem State.leastKey_eq_some {s : State} {k : Fin 16} (hk : s.key k = true) (hleast : ∀ j, j < k → s.key j = false) :
    s.leastKey = some k := by
  refine List.find?_eq_some_iff_getElem.2 ⟨hk, k.val, by simp, by simp, fun j hj => ?_⟩
  have hj16 : j < 16 := Nat.lt_trans hj k.isLt
  simp [hleast ⟨j, hj16⟩ hj]

theorem State.leastKey_eq_none {s : State} (h : ∀ k, s.key k = false) : s.leastKey = none :=
  List.find?_eq_none.2 fun k _ => by simp [h k]

/-- LD Vx, K with `k` the least pressed key (R155, D12). -/
theorem exec_ldVxK_least_key (x : Reg) {s : State} {k : Fin 16} (hk : s.key k = true)
    (hleast : ∀ j, j < k → s.key j = false) : exec (.ldVxK x) s = .next (s.setReg x (BitVec.ofNat 8 k.val)) :=
  congrArg (fun key => Host.Outcome.next (s.waitKey x key)) (State.leastKey_eq_some hk hleast)

/-- LD Vx, K with no key pressed (R155). -/
theorem exec_ldVxK_no_key (x : Reg) {s : State} (h : ∀ k, s.key k = false) :
    exec (.ldVxK x) s = .next (s.setPc (s.pc - 2)) :=
  congrArg (fun key => Host.Outcome.next (s.waitKey x key)) (State.leastKey_eq_none h)

/-- The key a register selects, by its low four bits (R150). -/
theorem selector_eq {b : Byte} {k : Fin 16} (h : b.toNat % 16 = k.val) : selector b = k :=
  Fin.ext ((selector_val b).trans h)

/-! ### The statements about the framebuffer -/

/-- Settles O51: the draw's pixels and its hit, the hit written to VF. -/
theorem drawFlipsTheSpritesPixels : Obligations.DrawFlipsTheSpritesPixels := by
  intro x y n s
  refine ⟨_, rfl, (s.drawn_spec x y n).1, ?_, ?_, fun z hz => ?_, rfl, fun _ => rfl⟩
  · rw [State.setVF_reg, if_pos rfl, flagByte_eq_one_iff, State.drawn_hit_iff]
  · rw [State.setVF_reg, if_pos rfl, flagByte_eq_zero_iff, State.drawn_hit_eq_false_iff]
  · rw [State.setVF_reg, if_neg hz, State.setVideo_reg]

/-- Settles O52: both draws flip the pixels under the same sprite, so that every pixel is back, and the second finds a
pixel under the sprite set exactly where the first found it clear. -/
theorem drawingTwiceRestoresTheScreen : Obligations.DrawingTwiceRestoresTheScreen := by
  intro x y n s u
  obtain ⟨t, ht, hfirst, -⟩ := drawFlipsTheSpritesPixels x y n s
  refine ⟨t, ht, fun hvideo hmem hI hx hy => ?_⟩
  obtain ⟨v, hv, hsecond, hVF, -⟩ := drawFlipsTheSpritesPixels x y n u
  rw [State.spriteBit_congr hmem hI hx hy n, hvideo] at hsecond hVF
  refine ⟨v, hv, video_ext fun px py => ?_, hVF.trans ?_⟩
  · rw [hsecond, hfirst, Bool.xor_assoc, Bool.xor_self, Bool.xor_false]
  · refine exists_congr fun px => exists_congr fun py => and_congr_right fun hbit => ?_
    rw [hfirst, hbit, Bool.xor_true, Bool.not_eq_true']

/-- Settles O50: the new framebuffer is the blank one. -/
theorem clsClearsEveryPixel : Obligations.ClsClearsEveryPixel :=
  fun s => ⟨_, rfl, pixel_blankVideo, rfl, s.setVideo_memRead blankVideo⟩

/-! ### The statements about the keypad -/

/-- Settles O54: the least key is `k`, and its number fits in a byte. -/
theorem keyWaitTakesTheLeastKey : Obligations.KeyWaitTakesTheLeastKey := by
  intro x s k hk hleast
  refine ⟨_, exec_ldVxK_least_key x hk hleast, ?_, s.setReg_frame x _⟩
  rw [State.setReg_reg_self, BitVec.toNat_ofNat]
  omega

/-- Settles O55: the handler takes back the advance of the fetch, and the cycle ends with the tick. -/
theorem keyWaitRewindsWithoutAKey : Obligations.KeyWaitRewindsWithoutAKey := by
  refine ⟨fun x s h => exec_ldVxK_no_key x h, fun x s hd h => ?_⟩
  have hpc : s.fetched.pc - 2 = s.pc := BitVec.add_sub_cancel s.pc 2
  rw [step_of_decode hd, exec_ldVxK_no_key x h, hpc, tickResult, State.tick_eq]
  rfl

/-- Settles O53: the selected key is `k`, and each handler is one conditional advance of `pc`. -/
theorem keySkipsFollowTheSelectedKey : Obligations.KeySkipsFollowTheSelectedKey := by
  intro x s k hk
  constructor
  · rw [exec, execSkp, selector_eq hk, State.skipIf_eq]
  · rw [exec, execSknp, selector_eq hk, State.skipIf_eq]
    cases s.key k <;> rfl

/-! ### The statements about the timers and the random byte -/

/-- Settles O56: each of the three handlers is one write, of a register or of a timer. -/
theorem timerMovesCopyTheValue : Obligations.TimerMovesCopyTheValue :=
  fun x s =>
    ⟨⟨_, rfl, s.setReg_reg_self x s.DT, s.setReg_frame x s.DT⟩,
      ⟨_, rfl, s.setDT_DT (s.reg x), rfl, s.setDT_memRead (s.reg x)⟩,
      ⟨_, rfl, s.setST_ST (s.reg x), rfl, s.setST_memRead (s.reg x)⟩⟩

/-- Settles O57: one register is written, with the byte masked bit by bit, after one random byte is consumed. -/
theorem randomByteIsMasked : Obligations.RandomByteIsMasked := by
  intro x kk s
  obtain ⟨hreg, -, hmem⟩ := s.consumeRnd.setReg_frame x (Config.rnd s.rndCount &&& kk)
  refine ⟨_, rfl, fun j => ?_, hreg, rfl, rfl, hmem⟩
  rw [State.setReg_reg_self, BitVec.getLsbD_and]

end Sys2Proof.Machine

/-! ## Proofs: exceptions (60_exceptions.md)

An error discards nothing and adds nothing but its report (`State.raiseError`): an illegal word raises in the fetched
state, before the tick (`State.fetched_raiseError_tick`), and CALL and RET raise in the state they start from
(`execCall_full`, `execRet_empty`). -/

namespace Sys2Proof.Machine

/-- Settles O9: the word's step raises DecodeError in the fetched state and ticks. -/
theorem illegalWordReportsDecodeError : Obligations.IllegalWordReportsDecodeError := by
  intro s r hr
  rw [step_of_reject hr, State.fetched_raiseError_tick]

/-- Settles O39: each handler's error branch raises in the state it was given, whose `pc` the fetch has advanced. -/
theorem stackErrorsChangeNothingAndReport : Obligations.StackErrorsChangeNothingAndReport :=
  fun _ => ⟨fun nnn hfull => execCall_full nnn hfull, fun hempty => execRet_empty hempty⟩

end Sys2Proof.Machine

/-! ## Proofs: the host's ROM load and the launch (70_reset_and_hazards.md)

A byte after the ROM load is the ROM's where one was written, and the byte before elsewhere (`State.loadRom_memRead`). A
launch is that load into the configured reset state, or a refusal (`State.launch_cases`). -/

namespace Sys2Proof.Machine

/-! ### The ROM load -/

section
variable {s : State} (h : Memory.wf s.mem = true) (rom : List Byte)
include h

/-- Byte `i` of the ROM, when it fits, reads back at `0x200 + i` (R193). -/
theorem State.loadRom_memRead_rom {i : Nat} (hi : i < rom.length) (hfit : i < 0xE00) :
    rom[i]? = some ((s.loadRom rom).1.memRead (0x200 + i)) := by
  have hin : i < (rom.take 0xE00).length := by
    rw [List.length_take]
    exact lt_min hfit hi
  rw [State.loadRom_memRead h rom (by omega), if_pos (by omega), Nat.add_sub_cancel_left,
    List.getD_eq_getElem _ _ hin, List.getElem_take, List.getElem?_eq_getElem hi]

/-- The ROM load leaves every byte outside the ROM's range alone (R193). -/
theorem State.loadRom_memRead_off {a : Nat} (ha : a < 4096) (hoff : a < 0x200 ∨ 0x200 + rom.length ≤ a) :
    (s.loadRom rom).1.memRead a = s.memRead a := by
  have hle : (rom.take 0xE00).length ≤ rom.length := List.length_take_le' _ _
  rw [State.loadRom_memRead h rom ha, if_neg (by omega)]

/-- A ROM of two bytes or more leaves its first two as the word at 0x200 (R54, R193). -/
theorem State.loadRom_memReadWord (hi lo : Byte) :
    (s.loadRom (hi :: lo :: rom)).1.memReadWord 0x200 = joinBytes hi lo :=
  congrArg₂ joinBytes
    (Option.some.inj (State.loadRom_memRead_rom h (hi :: lo :: rom) (i := 0) (by simp) (by decide))).symm
    (Option.some.inj (State.loadRom_memRead_rom h (hi :: lo :: rom) (i := 1) (by simp) (by decide))).symm

end

/-- The ROM load keeps a state sound: it leaves `sp` alone. -/
theorem State.loadRom_keeps_inv {s : State} (h : s.Inv) (rom : List Byte) : (s.loadRom rom).1.Inv :=
  ⟨State.loadRom_wf h.1 rom, h.2⟩

/-! ### The statements about the ROM load and the launch -/

/-- Settles O58: the bytes by the two reads after the load, the rest because the load writes memory only. -/
theorem romLoadWritesWhatFits : Obligations.RomLoadWritesWhatFits :=
  fun _ rom hs =>
    ⟨fun _ => State.loadRom_memRead_rom hs rom, fun _ => State.loadRom_memRead_off hs rom, rfl,
      State.loadRom_wf hs rom, rfl⟩

/-- Settles O59: a launch is refused above 0xE00 bytes and is otherwise the ROM load into the configured reset state,
which is sound and whose `pc` is 0x200. -/
theorem launchIsRefusedWhenTheRomDoesNotFit : Obligations.LaunchIsRefusedWhenTheRomDoesNotFit := by
  intro q rom
  have hinv : (State.reset.configure q).Inv := resetMeetsTheInvariant
  have hwf : Memory.wf (State.reset.configure q).mem = true := hinv.1
  rcases State.launch_cases q rom with ⟨hfits, hok⟩ | ⟨hlong, herr⟩
  · refine ⟨fun _ => ⟨_, hok, State.loadRom_keeps_inv hinv rom, fun i hi => ?_, fun a => ?_, rfl, ?_⟩, fun hlong => ?_⟩
    · exact State.loadRom_memRead_rom hwf rom hi (by omega)
    · exact State.loadRom_memRead_off hwf rom
    · rintro hi lo rest rfl
      calc (((State.reset.configure q).loadRom (hi :: lo :: rest)).1.fetchWord).toNat
          = (joinBytes hi lo).toNat := congrArg BitVec.toNat (State.loadRom_memReadWord hwf rest hi lo)
        _ = 256 * hi.toNat + lo.toNat := joinBytes_toNat hi lo
    · omega
  · exact ⟨fun hfits => by omega, fun _ => herr⟩

end Sys2Proof.Machine
